-- ==== Sys2Proof/Word.lean ====
section
/-! DEFINITION. The words of the block: bytes, 32-bit registers and 18-bit block offsets
(00_scope R7, R8; 20_memory R60). -/

namespace Sys2Proof

/-- `BYTE` of 00_scope R7: an 8-bit unsigned value. -/
abbrev Byte := BitVec 8

/-- `REG_WIDTH` of 00_scope R7: every register is 32 bits wide. -/
abbrev Word := BitVec 32

/-- `ADDR_WIDTH` of 00_scope R7: an 18-bit block-local byte offset. -/
abbrev Offset := BitVec 18

end Sys2Proof
end

