-- ==== Sys2Proof/Config.lean ====
section
/-! DEFINITION. The parameters of 00_scope R7, and the values the spec leaves free (00_scope R10
"draw"; 93_implementation_defined). A free value is an opaque constant: nothing is known of it. -/

namespace Sys2Proof

/-- The two buffers of the block (10_state R39, R40). -/
inductive Buffer where
  | ibuf
  | obuf
deriving DecidableEq, Repr, Inhabited

/-- Who takes the next step: the host, the engine, or the reset event (00_scope R11). -/
inductive Agent where
  | host
  | engine
  | reset
deriving DecidableEq, Repr, Inhabited

/-- The two parameters a model takes as arguments (00_scope R7, 93 I17). -/
structure Config where
  ibufSize : Nat
  obufSize : Nat
deriving DecidableEq, Repr

/-- The legal range `1..65536` of both buffer sizes (00_scope R7). -/
abbrev Config.Legal (c : Config) : Prop :=
  (1 ≤ c.ibufSize ∧ c.ibufSize ≤ 65536) ∧ (1 ≤ c.obufSize ∧ c.obufSize ≤ 65536)

/-- The default sizes of 00_scope R7. -/
def Config.default : Config := { ibufSize := 65536, obufSize := 65536 }

/-- `RLE_MAX_RUN` of 00_scope R7: the largest count in one pair. -/
def Config.rleMaxRun : Nat := 255

/-- `VLQ_MAX_CONFORMING` of 00_scope R7: the most bytes the encoder emits. -/
def Config.vlqMaxConforming : Nat := 5

/-- `ID_VALUE` of 00_scope R7 (10_state R37). -/
def Config.idValue : Word := 0x56435341#32

/-- `VERSION_VALUE` of 00_scope R7 (10_state R37). -/
def Config.versionValue : Word := 0x00000001#32

/-- FREE VALUE (log 2, DESIGN CHOICE, safe): whose step comes at turn `n` when the state does not list
it. 20_memory R72 and 70_reset R241 leave the interleaving open. -/
opaque Config.freeAgent : Nat → Agent

/-- FREE VALUE (log 18, DESIGN CHOICE, safe): how many turns after turn `n` a turn of the engine comes,
some finite number of which nothing is known (70_reset R241: any finite number of host transactions,
zero included, and weak fairness of the engine). -/
opaque Config.engineWait : Nat → Nat

/-- FREE VALUE (log 5, DEDUCED, safe unless log 5's risk applies): what byte `i` of a buffer holds while
it is unwritten since the reset numbered `epoch`, as the host reads it (10_state R46, 20_memory R69). -/
opaque Config.unwrittenByte : (epoch : Nat) → Buffer → (i : Nat) → Byte

/-- FREE VALUE (log 6, DESIGN CHOICE, safe): what the engine reads at turn `turn` from an IBUF byte `i`
that is unwritten (10_state R46). -/
opaque Config.engineReadByte : (turn : Nat) → (i : Nat) → Byte

/-- FREE VALUE (log 7, DESIGN CHOICE, safe): what a host read of OUT_LEN, CONSUMED or VALUE at turn
`turn` returns while the engine is busy (20_memory R71). -/
opaque Config.busyReadWord : (turn : Nat) → Word

/-- FREE VALUE (log 7, DESIGN CHOICE, safe): what a host read of OBUF byte `i` inside the running
command's output window returns at turn `turn` (20_memory R71). -/
opaque Config.busyReadByte : (turn : Nat) → (i : Nat) → Byte

/-- FREE VALUE (log 8, DESIGN CHOICE, safe): what OBUF byte `i` of the output window holds after a
command completed at turn `turn` with OUTPUT_OVERFLOW (60_exceptions R206). -/
opaque Config.overflowByte : (turn : Nat) → (i : Nat) → Byte

end Sys2Proof
end

