-- ==== Sys2Proof/Machine/Registers.lean ====
section
/-! DEFINITION. The register map of 10_state R21, the access sizes of 20_memory R62, and the host
notation of 30_encoding R100 as data. -/

namespace Sys2Proof.Machine

/-- The 14 registers of 10_state R21. -/
inductive Reg where
  | cmd
  | status
  | ctrl
  | inBase
  | inLen
  | outBase
  | outCap
  | outLen
  | consumed
  | value
  | id
  | version
  | ibufSizeReg
  | obufSizeReg
deriving DecidableEq, Repr

/-- The offset of a register (10_state R21). -/
def Reg.offset (r : Reg) : Offset :=
  match r with
  | .cmd => 0x00#18
  | .status => 0x04#18
  | .ctrl => 0x08#18
  | .inBase => 0x0C#18
  | .inLen => 0x10#18
  | .outBase => 0x14#18
  | .outCap => 0x18#18
  | .outLen => 0x1C#18
  | .consumed => 0x20#18
  | .value => 0x24#18
  | .id => 0x28#18
  | .version => 0x2C#18
  | .ibufSizeReg => 0x30#18
  | .obufSizeReg => 0x34#18

/-- The registers in the order of 10_state R21's table. -/
def Reg.all : List Reg :=
  [.cmd, .status, .ctrl, .inBase, .inLen, .outBase, .outCap, .outLen, .consumed, .value,
   .id, .version, .ibufSizeReg, .obufSizeReg]

/-- The register at an offset, if one sits there (10_state R21, 20_memory R65). -/
def Reg.at (a : Offset) : Option Reg := Reg.all.find? fun r => r.offset == a

/-- The access sizes of 20_memory R62: "Other sizes cannot be expressed". -/
inductive Size where
  | one
  | two
  | four
deriving DecidableEq, Repr

/-- `n` of 20_memory R62. -/
def Size.bytes (n : Size) : Nat :=
  match n with
  | .one => 1
  | .two => 2
  | .four => 4

/-- Offset `0x10000 + k`, written `IBUF+k` (30_encoding R100). -/
def ibufOffset (k : Nat) : Offset := BitVec.ofNat 18 (0x10000 + k)

/-- Offset `0x20000 + k`, written `OBUF+k` (30_encoding R100). -/
def obufOffset (k : Nat) : Offset := BitVec.ofNat 18 (0x20000 + k)

/-- A host temporary `t0 .. t15` (30_encoding R100). -/
abbrev Temp := Fin 16

/-- A statement of a host program (30_encoding R100). `wrT` at size four, two or one is `WR32 off, tK`,
`WR16 off, tK` or `WR8 off, tK`. The immediates of LI, ANDI and SRLI have 32 bits (log 16). -/
inductive Stmt where
  | wr32 (off : Offset) (imm : Word)
  | wr16 (off : Offset) (imm : BitVec 16)
  | wr8 (off : Offset) (imm : Byte)
  | rd32 (t : Temp) (off : Offset)
  | rd16 (t : Temp) (off : Offset)
  | rd8 (t : Temp) (off : Offset)
  | wrT (n : Size) (off : Offset) (k : Temp)
  | li (t : Temp) (imm : Word)
  | andi (t m : Temp) (imm : Word)
  | srli (t m : Temp) (imm : Word)
  | add (t m k : Temp)
  | sub (t m k : Temp)
  | b (target : Nat)
  | bnz (t : Temp) (target : Nat)
  | bz (t : Temp) (target : Nat)
  | halt
deriving DecidableEq, Repr

/-- The pseudo-statements of 30_encoding R100; `stmt` is a plain statement among them
(log 22). -/
inductive Pseudo where
  | stmt (s : Stmt)
  | run (op : Word)
  | wait (t : Temp)
  | loadb (k : Nat) (bytes : List Byte)
  | ack
deriving DecidableEq, Repr

/-- The statements `LOADB k, [b0 b1 ...]` stands for (30_encoding R100). -/
def loadbStmts : Nat → List Byte → List Stmt
  | _, [] => []
  | k, x :: xs => .wr8 (ibufOffset k) x :: loadbStmts (k + 1) xs

/-- The expansion of a pseudo-statement that starts at statement number `at_` (30_encoding R100). -/
def Pseudo.expand (at_ : Nat) (p : Pseudo) : List Stmt :=
  match p with
  | .stmt s => [s]
  | .run op => [.wr32 Reg.cmd.offset op]
  | .wait t => [.rd32 t Reg.status.offset, .andi t t 0x1#32, .bnz t at_]
  | .loadb k bytes => loadbStmts k bytes
  | .ack => [.wr32 Reg.status.offset 0x2#32]

/-- A program with its pseudo-statements expanded, from statement number `at_` on. -/
def assembleFrom : Nat → List Pseudo → List Stmt
  | _, [] => []
  | at_, p :: ps => p.expand at_ ++ assembleFrom (at_ + (p.expand at_).length) ps

/-- A program with its pseudo-statements expanded (30_encoding R100). -/
def assemble (ps : List Pseudo) : List Stmt := assembleFrom 0 ps

end Sys2Proof.Machine
end

