-- ==== Sys2Proof/Machine/State.lean ====
section
/-! DEFINITION. The state: the block of 10_state R20, the host agent of 30_encoding R100, and the
model's own bookkeeping of turns; the reasons a step can stop; and the state after reset
(10_state R45). -/

namespace Sys2Proof.Machine

/-- The engine state of 10_state R41. -/
inductive Fsm where
  | idle
  | busy
deriving DecidableEq, Repr

/-- The written bytes of a buffer by index, in one canonical form: indices strictly rising (log 17). An
index that is not listed is unwritten since reset (10_state R46). -/
abbrev Memory := List Host.Cell

/-- The error codes of 60_exceptions R201. `invalidFormat` is reserved and never raised (R208). -/
inductive ErrCode where
  | none
  | malformedData
  | endOfInput
  | invalidFormat
  | bounds
  | outputOverflow
  | illegalCommand
deriving DecidableEq, Repr

/-- The state of the block (10_state R20: "exactly the following"), its parameters, and `epoch`. -/
structure Block where
  /-- `IBUF_SIZE` and `OBUF_SIZE`: parameters (00_scope R7), which no step changes (log 1). -/
  cfg : Config
  /-- FSM (10_state R41); STATUS.BUSY has no storage of its own (R24). -/
  fsm : Fsm
  /-- LATCHED_OP (10_state R41). -/
  latchedOp : BitVec 4
  /-- STATUS.DONE (10_state R25). -/
  done : Bool
  /-- STATUS.WDROP (10_state R26). -/
  wdrop : Bool
  /-- STATUS.OVERLONG (10_state R27). -/
  overlong : Bool
  /-- STATUS.ERR (10_state R28). -/
  err : BitVec 4
  /-- CTRL.IE (10_state R29). -/
  ie : Bool
  /-- IN_BASE (10_state R30). -/
  inBase : Word
  /-- IN_LEN (10_state R31). -/
  inLen : Word
  /-- OUT_BASE (10_state R32). -/
  outBase : Word
  /-- OUT_CAP (10_state R33). -/
  outCap : Word
  /-- OUT_LEN (10_state R34). -/
  outLen : Word
  /-- CONSUMED (10_state R35). -/
  consumed : Word
  /-- VALUE (10_state R36). -/
  value : Word
  /-- IBUF (10_state R39). -/
  ibuf : Memory
  /-- OBUF (10_state R40). -/
  obuf : Memory
  /-- The MODEL's own field (log 5, log 9): the reset since which unwritten bytes hold what they hold. -/
  epoch : Nat
deriving DecidableEq, Repr

/-- How the host program ended in a fault (30_encoding R100). Recorded in the host's status: the block
goes on (log 12). -/
inductive HostFault where
  /-- A transaction answered ERR (30_encoding R100, 20_memory R66, 93 I15). Safe: the spec's own. -/
  | busError
  /-- A read of a temporary nothing has written (30_encoding R100, 93 I16). Safe: the spec's own. -/
  | unwrittenTemp
  /-- The statement index names no statement (log 13). Safe: the notation says nothing of it. -/
  | noStatement
deriving DecidableEq, Repr

/-- Whether the host program runs (30_encoding R100). -/
inductive HostStatus where
  | running
  | halted
  | faulted (f : HostFault)
deriving DecidableEq, Repr

/-- The host agent (00_scope R11, 30_encoding R100). -/
structure HostAgent where
  /-- The program, statements numbered from 0. -/
  program : List Stmt
  /-- The statement index (10_state R43: it belongs to the host agent). -/
  index : Nat
  /-- `t0 .. t15`; `none` is the spec's own state "unwritten" (30_encoding R100, log 11). -/
  temps : Vector (Option Word) 16
  /-- Whether the program runs, has ended at HALT, or has ended in a fault. -/
  status : HostStatus
deriving DecidableEq, Repr

/-- The whole machine: two agents and what says whose turn is next (00_scope R11, 20_memory R72). -/
structure State where
  /-- The ASCV codec block. -/
  block : Block
  /-- The host agent. -/
  host : HostAgent
  /-- The MODEL's own field (log 2): the agents whose turns come next; after them the interleaving is
  free but for the engine's fairness (log 18). -/
  schedule : List Agent
  /-- The MODEL's own field (log 9): the number of the next step, which makes each draw a fresh one. -/
  turn : Nat
deriving DecidableEq, Repr

/-- Why the machine itself stops. Errors of a command are recorded in STATUS.ERR (60_exceptions R200),
and the faults of a host program in the host's status, so this is the only one. -/
inductive Fault where
  /-- Raised by the engine's step when FSM = BUSY and LATCHED_OP is outside 1..4: no run reaches it
  (60_exceptions R210, log 15). Safe. -/
  | latchedOpReserved
deriving DecidableEq, Repr

/-- Why a step is refused. -/
inductive Refusal where
  /-- Raised by exec's arm of an instruction that has no meaning yet; no arm does. Safe. -/
  | notModelled (mnemonic : String)
deriving DecidableEq, Repr

/-- The block after the reset numbered `epoch` (10_state R45): every register and field at its value
there, every buffer byte unwritten (R46). LATCHED_OP is unspecified there: the model's 0 is a DESIGN
CHOICE (log 4). -/
def Block.reset (cfg : Config) (epoch : Nat) : Block :=
  { cfg := cfg
    fsm := .idle
    latchedOp := 0#4
    done := false
    wdrop := false
    overlong := false
    err := 0#4
    ie := false
    inBase := 0#32
    inLen := 0#32
    outBase := 0#32
    outCap := 0#32
    outLen := 0#32
    consumed := 0#32
    value := 0#32
    ibuf := []
    obuf := []
    epoch := epoch }

/-- A host with no program: its temporaries are unwritten (30_encoding R100, log 10, log 11). -/
def HostAgent.noProgram : HostAgent :=
  { program := []
    index := 0
    temps := Vector.replicate 16 none
    status := .halted }

/-- The machine right after reset (10_state R45), with the default parameters (00_scope R7), no host
program loaded and every fair interleaving open (log 2, log 10, log 18). -/
def State.reset : State :=
  { block := Block.reset Config.default 0
    host := HostAgent.noProgram
    schedule := []
    turn := 0 }

end Sys2Proof.Machine
end

