-- ==== Sys2Proof/Machine/Codec.lean ====
section
/-! DEFINITION. The codec functions: rle_encode (40_rle R120), rle_decode (40_rle R122), vlq_encode
(41_vlq R160) and vlq_decode (41_vlq R162). Arithmetic is on unbounded naturals (00_scope R8). -/

namespace Sys2Proof.Machine

/-! ### RLE -/

/-- How many bytes at the front of a sequence equal `x`. -/
def runLength (x : Byte) : List Byte → Nat
  | [] => 0
  | y :: ys => if y = x then runLength x ys + 1 else 0

/-- The count of the next pair of `x :: xs`: its maximal run clamped to 255 (40_rle R120). -/
def rleCount (x : Byte) (xs : List Byte) : Nat := min (1 + runLength x xs) Config.rleMaxRun

/-- The loop of `rle_encode` (40_rle R120): count byte, value byte, then advance past exactly `count`
bytes. Each pair uses up at least one byte, so the input's length is fuel enough
(log 21). -/
def rleEncodeLoop : Nat → List Byte → List Byte
  | 0, _ => []
  | _ + 1, [] => []
  | fuel + 1, x :: xs =>
    BitVec.ofNat 8 (rleCount x xs) :: x :: rleEncodeLoop fuel ((x :: xs).drop (rleCount x xs))

/-- `rle_encode` (40_rle R120). It never fails. -/
def rleEncode (x : List Byte) : List Byte := rleEncodeLoop x.length x

/-- The expansion of RLE data pair by pair: `replicate(count, value)` in order (40_rle R122). -/
def expandPairs : List Byte → List Byte
  | c :: x :: rest => List.replicate c.toNat x ++ expandPairs rest
  | _ => []

/-- `rle_decode` (40_rle R122): input of odd length is refused whole. -/
def rleDecode (y : List Byte) : Except ErrCode (List Byte) :=
  if y.length % 2 = 1 then .error .malformedData else .ok (expandPairs y)

/-! ### VLQ -/

/-- The loop of `vlq_encode` (41_vlq R160) on a natural, with the most bytes still allowed. -/
def vlqEncodeLoop : Nat → Nat → List Byte
  | 0, _ => []
  | fuel + 1, v =>
    if v >>> 7 ≠ 0 then BitVec.ofNat 8 ((v &&& 0x7F) ||| 0x80) :: vlqEncodeLoop fuel (v >>> 7)
    else [BitVec.ofNat 8 (v &&& 0x7F)]

/-- `vlq_encode` (41_vlq R160). Five bytes are enough for 32 bits (41_vlq R161, log 21). -/
def vlqEncode (v : Word) : List Byte := vlqEncodeLoop Config.vlqMaxConforming v.toNat

/-- The triple `vlq_decode` returns (41_vlq R162). -/
structure VlqResult where
  value : Word
  consumed : Nat
  overlong : Bool
deriving DecidableEq, Repr

/-- What `vlq_decode` returns at the terminating byte, after `consumed` bytes that accumulate to `acc`
(41_vlq R162): the low 32 bits, and whether no conforming encoder makes this input. -/
def vlqResult (consumed acc : Nat) : VlqResult :=
  { value := BitVec.ofNat 32 acc
    consumed := consumed
    overlong := decide (Config.vlqMaxConforming < consumed ∨ 2 ^ 32 ≤ acc) }

/-- The loop of `vlq_decode` (41_vlq R162): `i` bytes read so far, accumulated to `acc`. -/
def vlqDecodeLoop : Nat → Nat → List Byte → Except ErrCode VlqResult
  | _, _, [] => .error .endOfInput
  | i, acc, x :: xs =>
    if x.toNat &&& 0x80 = 0 then .ok (vlqResult (i + 1) (acc + (x.toNat &&& 0x7F) <<< (7 * i)))
    else vlqDecodeLoop (i + 1) (acc + (x.toNat &&& 0x7F) <<< (7 * i)) xs

/-- `vlq_decode` (41_vlq R162). -/
def vlqDecode (y : List Byte) : Except ErrCode VlqResult := vlqDecodeLoop 0 0 y

end Sys2Proof.Machine
end

