-- ==== Sys2Proof/Syntax.lean ====
section
/-! DEFINITION. The commands of the block: one constructor per row of spec/opcode_table.json
(30_encoding R91). No command has an immediate or a register field (30_encoding R90). -/

namespace Sys2Proof

/-- The four commands (00_scope R1, 30_encoding R91). Their operands are the registers and windows of
30_encoding R94, so no constructor takes an argument. -/
inductive Instr where
  /-- `0x00000001`, 40_rle R124. -/
  | rleEncode
  /-- `0x00000002`, 40_rle R125. -/
  | rleDecode
  /-- `0x00000003`, 41_vlq R164. -/
  | vlqEncode
  /-- `0x00000004`, 41_vlq R165. -/
  | vlqDecode
deriving DecidableEq, Repr

end Sys2Proof
end

