-- ==== Sys2Proof/Decode.lean ====
section
/-! DEFINITION. The decoder of a command word, total on all 2^32 words, and the encoder, both from
30_encoding R90, R91 and R93. -/

namespace Sys2Proof

/-- Why a word is no command (30_encoding R93): both reasons give ILLEGAL_COMMAND. -/
inductive DecodeError where
  /-- RSV (bits 31:4) is not 0. -/
  | reservedBitsSet
  /-- RSV is 0 and OP is 0x0 or 0x5 to 0xF. -/
  | reservedOp (op : BitVec 4)
deriving DecidableEq, Repr

/-- The OP field, bits 3:0 (30_encoding R90). -/
def opField (w : Word) : BitVec 4 := w.extractLsb' 0 4

/-- The RSV field, bits 31:4 (30_encoding R90). -/
def rsvField (w : Word) : BitVec 28 := w.extractLsb' 4 28

/-- The opcode map of 30_encoding R91. The engine reads LATCHED_OP by the same map
(60_exceptions R210). -/
def instrOfOp (op : BitVec 4) : Option Instr :=
  match op with
  | 0x1#4 => some .rleEncode
  | 0x2#4 => some .rleDecode
  | 0x3#4 => some .vlqEncode
  | 0x4#4 => some .vlqDecode
  | _ => none

/-- The decoder matches the whole word (30_encoding R91, R93). -/
def decode (w : Word) : Except DecodeError Instr :=
  if rsvField w = 0#28 then
    match instrOfOp (opField w) with
    | some i => .ok i
    | none => .error (.reservedOp (opField w))
  else .error .reservedBitsSet

/-- The OP value of a command, from the opcode map of 30_encoding R91. -/
def opOfInstr (i : Instr) : BitVec 4 :=
  match i with
  | .rleEncode => 0x1#4
  | .rleDecode => 0x2#4
  | .vlqEncode => 0x3#4
  | .vlqDecode => 0x4#4

/-- The command word: OP in bits 3:0, RSV = 0 (30_encoding R90). -/
def encode (i : Instr) : Word := 0#28 ++ opOfInstr i

/-- What the decoder reads from an instruction whose bits, numbered as spec/opcode_table.json numbers
them, are `w`. A command is one 32-bit word written to CMD in one transaction (30_encoding R99), so
there is no order of bytes to choose; bits at and above `nbits` are 0. -/
def decodeTableWord (nbits w : Nat) : Option Instr :=
  match decode (BitVec.ofNat 32 (w % 2 ^ nbits)) with
  | .ok i => some i
  | .error _ => none

end Sys2Proof
end

