-- ==== Sys2Proof/Machine/Flags.lean ====
section
/-! DEFINITION. The status and control words, the error codes and the interrupt: every flag the spec
names, and how each is read and written (10_state R23 to R29, 60_exceptions R201, R212). -/

namespace Sys2Proof.Machine

/-- The codes of 60_exceptions R201. -/
def ErrCode.code (e : ErrCode) : BitVec 4 :=
  match e with
  | .none => 0#4
  | .malformedData => 1#4
  | .endOfInput => 2#4
  | .invalidFormat => 3#4
  | .bounds => 4#4
  | .outputOverflow => 5#4
  | .illegalCommand => 6#4

/-- STATUS.BUSY reads 1 exactly when FSM = BUSY (10_state R24). -/
def Block.busy (b : Block) : Bool :=
  match b.fsm with
  | .idle => false
  | .busy => true

/-- The STATUS word: bit 0 BUSY, 1 DONE, 2 WDROP, 3 OVERLONG, 7:4 ERR, the rest 0 (10_state R23). -/
def Block.statusWord (b : Block) : Word :=
  0#24 ++ b.err ++ BitVec.ofBool b.overlong ++ BitVec.ofBool b.wdrop ++ BitVec.ofBool b.done
    ++ BitVec.ofBool b.busy

/-- The CTRL word: bit 0 IE, the rest 0 (10_state R29). -/
def Block.ctrlWord (b : Block) : Word := 0#31 ++ BitVec.ofBool b.ie

/-- A host write to STATUS: bit 1 clears DONE, bit 2 clears WDROP, all else is ignored, whatever FSM is
(10_state R23). This is the acknowledge of 60_exceptions R214. -/
def Block.writeStatus (w : Word) (b : Block) : Block :=
  { b with done := b.done && !w.getLsbD 1, wdrop := b.wdrop && !w.getLsbD 2 }

/-- A host write to CTRL, whatever FSM is (10_state R29). -/
def Block.writeCtrl (w : Word) (b : Block) : Block := { b with ie := w.getLsbD 0 }

/-- The interrupt output: `IRQ = CTRL.IE and STATUS.DONE` (60_exceptions R212). -/
def Block.irq (b : Block) : Bool := b.ie && b.done

end Sys2Proof.Machine
end

