-- ==== Sys2Proof/Machine/Memory.lean ====
section
/-! DEFINITION. The buffers as lists of written cells, and the byte order of wide accesses
(10_state R39, R40, R46; 20_memory R67, R68). -/

namespace Sys2Proof.Machine

/-- The byte written at index `i` since reset, if there is one. -/
def Memory.lookup : Memory → Nat → Option Byte
  | [], _ => none
  | (k, v) :: rest, i => if k = i then some v else Memory.lookup rest i

/-- Write one byte, keeping the indices strictly rising. -/
def Memory.write : Memory → Nat → Byte → Memory
  | [], i, x => [(i, x)]
  | (k, v) :: rest, i, x =>
    if i < k then (i, x) :: (k, v) :: rest
    else if i = k then (i, x) :: rest
    else (k, v) :: Memory.write rest i x

/-- Write bytes at consecutive indices from `i`, the first byte first. -/
def Memory.writeBytes : Memory → Nat → List Byte → Memory
  | m, _, [] => m
  | m, i, x :: xs => Memory.writeBytes (Memory.write m i x) (i + 1) xs

/-- Every index is at least `lo`, below `size`, and above the one before it. -/
def Memory.sortedFrom (size : Nat) : Nat → Memory → Bool
  | _, [] => true
  | lo, (k, _) :: rest => decide (lo ≤ k) && decide (k < size) && Memory.sortedFrom size (k + 1) rest

/-- The canonical form of a buffer of `size` bytes: indices strictly rising and below `size` (log 17). -/
def Memory.wf (size : Nat) (m : Memory) : Bool := Memory.sortedFrom size 0 m

/-- The little-endian sum of 20_memory R67: the first byte is bits 7:0. -/
def leNat : List Byte → Nat
  | [] => 0
  | x :: xs => x.toNat + 2 ^ 8 * leNat xs

/-- The low `n` bytes of a word, bits 7:0 first (20_memory R68). -/
def leBytes (n : Nat) (v : Word) : List Byte := (List.range n).map fun k => v.extractLsb' (8 * k) 8

/-- The written cells of a buffer (10_state R39, R40). -/
def Block.mem (b : Block) (which : Buffer) : Memory :=
  match which with
  | .ibuf => b.ibuf
  | .obuf => b.obuf

/-- The size of a buffer (00_scope R7). -/
def Block.bufSize (b : Block) (which : Buffer) : Nat :=
  match which with
  | .ibuf => b.cfg.ibufSize
  | .obuf => b.cfg.obufSize

/-- What byte `i` of a buffer holds, as the host reads it: the byte written since reset, and otherwise a
free value that stays the same until the byte is written (10_state R46, 20_memory R69, log 5). -/
def Block.byte (b : Block) (which : Buffer) (i : Nat) : Byte :=
  ((b.mem which).lookup i).getD (Config.unwrittenByte b.epoch which i)

/-- Store bytes into a buffer from index `i` on. -/
def Block.storeBytes (which : Buffer) (i : Nat) (xs : List Byte) (b : Block) : Block :=
  match which with
  | .ibuf => { b with ibuf := b.ibuf.writeBytes i xs }
  | .obuf => { b with obuf := b.obuf.writeBytes i xs }

end Sys2Proof.Machine
end

