-- ==== Sys2Proof/Machine/Operands.lean ====
section
/-! DEFINITION. The operand windows of 30_encoding R94 to R96 and what lies in them. -/

namespace Sys2Proof.Machine

/-- The input window is in bounds, in unbounded naturals (30_encoding R95). -/
abbrev Block.InWindowOk (b : Block) : Prop := b.inBase.toNat + b.inLen.toNat ≤ b.cfg.ibufSize

/-- The output window is in bounds, in unbounded naturals (30_encoding R96). -/
abbrev Block.OutWindowOk (b : Block) : Prop := b.outBase.toNat + b.outCap.toNat ≤ b.cfg.obufSize

/-- IBUF byte `i` as the engine reads it in the completion step of turn `turn`: an unwritten byte is a
fresh free value (10_state R46, log 6). -/
def Block.engineByte (turn : Nat) (b : Block) (i : Nat) : Byte :=
  (b.ibuf.lookup i).getD (Config.engineReadByte turn i)

/-- The input window, `IN_LEN` bytes (30_encoding R95). -/
def Block.inWindow (turn : Nat) (b : Block) : List Byte :=
  (List.range b.inLen.toNat).map fun i => b.engineByte turn (b.inBase.toNat + i)

/-- OBUF index `i` lies in the output window (30_encoding R96). -/
abbrev Block.InOutWindow (b : Block) (i : Nat) : Prop :=
  b.outBase.toNat ≤ i ∧ i < b.outBase.toNat + b.outCap.toNat

/-- The running command writes an output window: RLE_ENCODE, RLE_DECODE or VLQ_ENCODE
(20_memory R71, R78). -/
abbrev Block.RunsOutputCommand (b : Block) : Prop :=
  b.fsm = .busy ∧ (b.latchedOp = 0x1#4 ∨ b.latchedOp = 0x2#4 ∨ b.latchedOp = 0x3#4)

end Sys2Proof.Machine
end

