-- ==== Sys2Proof/Machine/Ops.lean ====
section
/-! DEFINITION. The shared operations: how a command ends, well or in an error (60_exceptions R202,
R206, R210, R211), how one is issued (30_encoding R92), and the bus transactions (20_memory R62 to
R71). -/

namespace Sys2Proof.Machine

/-! ### How a command ends -/

/-- The common end of every completion step: `FSM <- IDLE; STATUS.DONE <- 1` (60_exceptions R210). -/
def Block.finish (b : Block) : Block := { b with fsm := .idle, done := true }

/-- `raise E` (60_exceptions R202), before the common end. This is how the block takes an error; it has
no other exception (R200), and the host's acknowledge is `Block.writeStatus` (R214). -/
def Block.raise (e : ErrCode) (b : Block) : Block :=
  { b with outLen := 0#32, consumed := 0#32, err := e.code, overlong := false }

/-- The results of a success, before the common end (10_state R27, R28, R34, R35). -/
def Block.succeed (outLen consumed : Word) (overlong : Bool) (b : Block) : Block :=
  { b with outLen := outLen, consumed := consumed, err := ErrCode.none.code, overlong := overlong }

/-- The output window with every byte a free value (60_exceptions R206, log 8). -/
def Block.clobberOutput (turn : Nat) (b : Block) : Block :=
  b.storeBytes .obuf b.outBase.toNat
    ((List.range b.outCap.toNat).map fun k => Config.overflowByte turn (b.outBase.toNat + k))

/-- A command's output `y`: it is written from OUT_BASE on when it is no longer than OUT_CAP
(30_encoding R96), and raises OUTPUT_OVERFLOW otherwise (60_exceptions R206). -/
def Block.emit (turn : Nat) (y : List Byte) (consumed : Word) (b : Block) : Block :=
  if b.outCap.toNat < y.length then (b.clobberOutput turn).raise .outputOverflow
  else (b.storeBytes .obuf b.outBase.toNat y).succeed (BitVec.ofNat 32 y.length) consumed false

/-- A completion step: the body of a command, then the common end (60_exceptions R210). Only the block
changes. It does not test FSM: the engine's turn does (log 20). -/
def State.complete (body : Block → Block) (s : State) : State :=
  { s with block := (body s.block).finish }

/-- The completion of an illegal command, inside the CMD write (60_exceptions R211). -/
def Block.completeIllegal (b : Block) : Block :=
  { b with outLen := 0#32, consumed := 0#32, err := ErrCode.illegalCommand.code, overlong := false,
           done := true }

/-! ### Issue -/

/-- A dropped write changes nothing but STATUS.WDROP (20_memory R70). -/
def Block.drop (b : Block) : Block := { b with wdrop := true }

/-- The issue of a command (30_encoding R92): it reads no operand and checks no bound. -/
def Block.issue (op : BitVec 4) (b : Block) : Block :=
  { b with latchedOp := op, fsm := .busy, done := false, err := 0#4, overlong := false }

/-- A host write of `w` to CMD (30_encoding R92). -/
def Block.writeCmd (w : Word) (b : Block) : Block :=
  match b.fsm with
  | .busy => b.drop
  | .idle =>
    match decode w with
    | .ok _ => b.issue (opField w)
    | .error _ => b.completeIllegal

/-! ### Bus transactions -/

/-- What a legal transaction reaches: a register, or bytes of a buffer from an index on. -/
inductive Target where
  | reg (r : Reg)
  | buffer (which : Buffer) (i : Nat)
deriving DecidableEq, Repr

/-- A buffer window at `base`: naturally aligned and not crossing the end (20_memory R64). -/
def Block.bufferTarget (b : Block) (which : Buffer) (base : Nat) (a : Offset) (n : Size) :
    Option Target :=
  if a.toNat % n.bytes = 0 ∧ a.toNat - base + n.bytes ≤ b.bufSize which then
    some (.buffer which (a.toNat - base))
  else none

/-- What the transaction `(a, n)` reaches, `none` when it is illegal (20_memory R61, R63, R64, R65). -/
def Block.target (b : Block) (a : Offset) (n : Size) : Option Target :=
  if a.toNat < 0x10000 then
    if n = .four ∧ a.toNat % 4 = 0 then (Reg.at a).map .reg else none
  else if a.toNat < 0x20000 then b.bufferTarget .ibuf 0x10000 a n
  else if a.toNat < 0x30000 then b.bufferTarget .obuf 0x20000 a n
  else none

/-- A host read of a register (10_state R21 to R38). While the engine is busy OUT_LEN, CONSUMED and VALUE
read as a fresh free value (20_memory R71, log 7). -/
def Block.readReg (turn : Nat) (b : Block) (r : Reg) : Word :=
  match r with
  | .cmd => 0#32
  | .status => b.statusWord
  | .ctrl => b.ctrlWord
  | .inBase => b.inBase
  | .inLen => b.inLen
  | .outBase => b.outBase
  | .outCap => b.outCap
  | .outLen => if b.fsm = .busy then Config.busyReadWord turn else b.outLen
  | .consumed => if b.fsm = .busy then Config.busyReadWord turn else b.consumed
  | .value => if b.fsm = .busy then Config.busyReadWord turn else b.value
  | .id => Config.idValue
  | .version => Config.versionValue
  | .ibufSizeReg => BitVec.ofNat 32 b.cfg.ibufSize
  | .obufSizeReg => BitVec.ofNat 32 b.cfg.obufSize

/-- A host read of one buffer byte: the stored byte, but for OBUF bytes in the output window of the
running command (20_memory R71, log 7). -/
def Block.readByte (turn : Nat) (b : Block) (which : Buffer) (i : Nat) : Byte :=
  if which = .obuf ∧ b.RunsOutputCommand ∧ b.InOutWindow i then Config.busyReadByte turn i
  else b.byte which i

/-- The bytes a host read of `n` bytes from index `i` sees, lowest index first. -/
def Block.readBytes (turn : Nat) (b : Block) (which : Buffer) (i n : Nat) : List Byte :=
  (List.range n).map fun k => b.readByte turn which (i + k)

/-- `MemRead(a, n)` at turn `turn` (20_memory R62): the value, zero-extended to 32 bits, or `none` for
ERR. It gives a value and no block: no read has a side effect (R69). -/
def Block.busRead (turn : Nat) (b : Block) (a : Offset) (n : Size) : Option Word :=
  match b.target a n with
  | none => none
  | some (.reg r) => some (b.readReg turn r)
  | some (.buffer which i) => some (BitVec.ofNat 32 (leNat (b.readBytes turn which i n.bytes)))

/-- A host write to an operand register or VALUE: dropped while the engine is busy (20_memory R70). -/
def Block.writeOperand (update : Block → Block) (b : Block) : Block :=
  match b.fsm with
  | .busy => b.drop
  | .idle => update b

/-- A host write to a register (20_memory R70). Read-only registers ignore it. -/
def Block.writeReg (v : Word) (b : Block) (r : Reg) : Block :=
  match r with
  | .cmd => b.writeCmd v
  | .status => b.writeStatus v
  | .ctrl => b.writeCtrl v
  | .inBase => b.writeOperand fun b => { b with inBase := v }
  | .inLen => b.writeOperand fun b => { b with inLen := v }
  | .outBase => b.writeOperand fun b => { b with outBase := v }
  | .outCap => b.writeOperand fun b => { b with outCap := v }
  | .outLen => b
  | .consumed => b
  | .value => b.writeOperand fun b => { b with value := v }
  | .id => b
  | .version => b
  | .ibufSizeReg => b
  | .obufSizeReg => b

/-- A host write of bytes to a buffer: dropped while the engine is busy (20_memory R68, R70). -/
def Block.writeBuffer (which : Buffer) (i : Nat) (xs : List Byte) (b : Block) : Block :=
  match b.fsm with
  | .busy => b.drop
  | .idle => b.storeBytes which i xs

/-- `MemWrite(a, n, v)` (20_memory R62), of the low `8n` bits of `v`: the block after it when it answers
OK, or `none` for ERR, after which the block is as it was (R66). -/
def Block.busWrite (b : Block) (a : Offset) (n : Size) (v : Word) : Option Block :=
  match b.target a n with
  | none => none
  | some (.reg r) => some (b.writeReg v r)
  | some (.buffer which i) => some (b.writeBuffer which i (leBytes n.bytes v))

end Sys2Proof.Machine
end

