-- ==== Sys2Proof/Machine/Rle.lean ====
section
/-! DEFINITION. The meanings of RLE_ENCODE (40_rle R124) and RLE_DECODE (40_rle R125): their completion
steps. -/

namespace Sys2Proof.Machine

/-- The body of RLE_ENCODE (40_rle R124). -/
def rleEncodeBody (turn : Nat) (b : Block) : Block :=
  if b.InWindowOk ∧ b.OutWindowOk then b.emit turn (rleEncode (b.inWindow turn)) b.inLen
  else b.raise .bounds

/-- The body of RLE_DECODE (40_rle R125). -/
def rleDecodeBody (turn : Nat) (b : Block) : Block :=
  if b.InWindowOk ∧ b.OutWindowOk then
    match rleDecode (b.inWindow turn) with
    | .ok x => b.emit turn x b.inLen
    | .error e => b.raise e
  else b.raise .bounds

/-- RLE_ENCODE (40_rle R124): its completion step (60_exceptions R210). -/
def execRleEncode (s : State) : Host.Outcome State Fault Refusal :=
  .next (s.complete (rleEncodeBody s.turn))

/-- RLE_DECODE (40_rle R125): its completion step (60_exceptions R210). -/
def execRleDecode (s : State) : Host.Outcome State Fault Refusal :=
  .next (s.complete (rleDecodeBody s.turn))

end Sys2Proof.Machine
end

