-- ==== Sys2Proof/Machine/Vlq.lean ====
section
/-! DEFINITION. The meanings of VLQ_ENCODE (41_vlq R164) and VLQ_DECODE (41_vlq R165): their completion
steps. -/

namespace Sys2Proof.Machine

/-- The body of VLQ_ENCODE (41_vlq R164). IN_BASE and IN_LEN are not read. -/
def vlqEncodeBody (turn : Nat) (b : Block) : Block :=
  if b.OutWindowOk then b.emit turn (vlqEncode b.value) 0#32 else b.raise .bounds

/-- The body of VLQ_DECODE (41_vlq R165). OUT_BASE and OUT_CAP are not read; IN_BASE is not advanced
(70_reset R238). -/
def vlqDecodeBody (turn : Nat) (b : Block) : Block :=
  if b.InWindowOk then
    match vlqDecode (b.inWindow turn) with
    | .ok r => { b.succeed 0#32 (BitVec.ofNat 32 r.consumed) r.overlong with value := r.value }
    | .error e => b.raise e
  else b.raise .bounds

/-- VLQ_ENCODE (41_vlq R164): its completion step (60_exceptions R210). -/
def execVlqEncode (s : State) : Host.Outcome State Fault Refusal :=
  .next (s.complete (vlqEncodeBody s.turn))

/-- VLQ_DECODE (41_vlq R165): its completion step (60_exceptions R210). -/
def execVlqDecode (s : State) : Host.Outcome State Fault Refusal :=
  .next (s.complete (vlqDecodeBody s.turn))

end Sys2Proof.Machine
end

