-- ==== Sys2Proof/Machine/Dispatch.lean ====
section
/-! DEFINITION. The meaning of each command: one arm per row of spec/opcode_table.json. -/

namespace Sys2Proof.Machine

/-- The completion step of a command (60_exceptions R210, the case on LATCHED_OP). -/
def exec (i : Instr) (s : State) : Host.Outcome State Fault Refusal :=
  match i with
  | .rleEncode => Sys2Proof.Machine.execRleEncode s
  | .rleDecode => Sys2Proof.Machine.execRleDecode s
  | .vlqEncode => Sys2Proof.Machine.execVlqEncode s
  | .vlqDecode => Sys2Proof.Machine.execVlqDecode s

end Sys2Proof.Machine
end

