-- ==== Sys2Proof/Machine/HostProgram.lean ====
section
/-! DEFINITION. The host agent's step: one statement of its program (30_encoding R100). -/

namespace Sys2Proof.Machine

/-- The value of a temporary, `none` while it is unwritten (30_encoding R100). -/
def HostAgent.temp (h : HostAgent) (t : Temp) : Option Word := h.temps[t.val]

/-- Write a temporary (30_encoding R100). -/
def HostAgent.setTemp (h : HostAgent) (t : Temp) (v : Word) : HostAgent :=
  { h with temps := h.temps.set t.val (some v) }

/-- Go to statement `target` (30_encoding R100). -/
def HostAgent.goto (h : HostAgent) (target : Nat) : HostAgent := { h with index := target }

/-- "Every statement not listed as a branch goes on to the next statement" (30_encoding R100). -/
def HostAgent.next (h : HostAgent) : HostAgent := h.goto (h.index + 1)

/-- The host program ends at this statement: at HALT, or in a fault (30_encoding R100). -/
def State.endHost (s : State) (status : HostStatus) : State :=
  { s with host := { s.host with status := status } }

/-- Go on with the value of a temporary; an unwritten one is a fault of the host program
(30_encoding R100, 93 I16). -/
def State.withTemp (s : State) (t : Temp) (k : Word → State) : State :=
  match s.host.temp t with
  | some v => k v
  | none => s.endHost (.faulted .unwrittenTemp)

/-- Write a temporary and go on to the next statement. -/
def State.setTempNext (s : State) (t : Temp) (v : Word) : State :=
  { s with host := (s.host.setTemp t v).next }

/-- A branch: to `target` when it is taken, else to the next statement. -/
def State.branch (s : State) (taken : Bool) (target : Nat) : State :=
  { s with host := if taken then s.host.goto target else s.host.next }

/-- A statement that makes the transaction `MemWrite(off, n, v)`; ERR ends the host program with a
bus-error fault (30_encoding R100, log 12). -/
def State.hostWrite (s : State) (n : Size) (off : Offset) (v : Word) : State :=
  match s.block.busWrite off n v with
  | some b => { s with block := b, host := s.host.next }
  | none => s.endHost (.faulted .busError)

/-- A statement that makes the transaction `MemRead(off, n)` and keeps `zext_32(v)` in a temporary; ERR
ends the host program with a bus-error fault (30_encoding R100, log 12). -/
def State.hostRead (s : State) (n : Size) (t : Temp) (off : Offset) : State :=
  match s.block.busRead s.turn off n with
  | some v => s.setTempNext t v
  | none => s.endHost (.faulted .busError)

/-- What each statement does (30_encoding R100). -/
def Stmt.run (st : Stmt) (s : State) : State :=
  match st with
  | .wr32 off imm => s.hostWrite .four off imm
  | .wr16 off imm => s.hostWrite .two off (imm.setWidth 32)
  | .wr8 off imm => s.hostWrite .one off (imm.setWidth 32)
  | .rd32 t off => s.hostRead .four t off
  | .rd16 t off => s.hostRead .two t off
  | .rd8 t off => s.hostRead .one t off
  | .wrT n off k => s.withTemp k fun v => s.hostWrite n off v
  | .li t imm => s.setTempNext t imm
  | .andi t m imm => s.withTemp m fun v => s.setTempNext t (v &&& imm)
  | .srli t m imm => s.withTemp m fun v => s.setTempNext t (v >>> imm.toNat)
  | .add t m k => s.withTemp m fun v => s.withTemp k fun w => s.setTempNext t (v + w)
  | .sub t m k => s.withTemp m fun v => s.withTemp k fun w => s.setTempNext t (v - w)
  | .b target => s.branch true target
  | .bnz t target => s.withTemp t fun v => s.branch (v != 0#32) target
  | .bz t target => s.withTemp t fun v => s.branch (v == 0#32) target
  | .halt => s.endHost .halted

/-- A turn of the host: the statement at its index while its program runs; a host whose program has
ended does nothing (log 3, log 13). -/
def State.hostStep (s : State) : State :=
  match s.host.status with
  | .running =>
    match s.host.program[s.host.index]? with
    | some st => st.run s
    | none => s.endHost (.faulted .noStatement)
  | .halted => s
  | .faulted _ => s

/-- The host with a program loaded, about to run its first statement; nothing else changes (log 10). -/
def State.loadProgram (s : State) (p : List Stmt) : State :=
  { s with host := { HostAgent.noProgram with program := p, status := .running } }

end Sys2Proof.Machine
end

