-- ==== Sys2Proof/Machine/Engine.lean ====
section
/-! DEFINITION. The engine's step, the reset event, whose turn is next, and the placing of one command
before the engine (60_exceptions R210, 70_reset R230, 20_memory R72). -/

namespace Sys2Proof.Machine

/-- A turn of the engine: the completion step, enabled exactly when FSM = BUSY (60_exceptions R210);
while FSM = IDLE it does nothing (log 3). -/
def State.engineStep (s : State) : Host.Outcome State Fault Refusal :=
  match s.block.fsm with
  | .idle => .next s
  | .busy =>
    match instrOfOp s.block.latchedOp with
    | some i => exec i s
    | none => .fault .latchedOpReserved

/-- The reset event (70_reset R230): the block takes the values of 10_state R45 with every buffer byte
unwritten anew; the host agent is no part of the block (log 10). -/
def State.resetEvent (s : State) : State := { s with block := Block.reset s.block.cfg s.turn }

/-- Turn `n` is the engine's by fairness: it is the one that some earlier turn waits for (70_reset R241,
log 18). Every turn waits for some turn, so these turns never end. -/
def engineTurnDue (n : Nat) : Bool := (List.range (n + 1)).any fun m => m + Config.engineWait m == n

/-- Whose turn is next: the schedule's first entry; past its end a free choice (20_memory R72, log 2),
but for the turns that weak fairness gives the engine (60_exceptions R210, 70_reset R241, log 18). -/
def State.nextAgent (s : State) : Agent :=
  match s.schedule with
  | [] => if engineTurnDue s.turn then .engine else Config.freeAgent s.turn
  | a :: _ => a

/-- The turn is taken: the schedule and the number of the turn go on (log 9). -/
def State.takeTurn (s : State) : State :=
  { s with schedule := s.schedule.tail, turn := s.turn + 1 }

/-- The turn of an agent. -/
def State.agentStep (a : Agent) (s : State) : Host.Outcome State Fault Refusal :=
  match a with
  | .host => .next s.hostStep
  | .engine => s.engineStep
  | .reset => .next s.resetEvent

/-- The state in which the command word `w` has just been written to CMD of an idle block and the
engine's turn is next; an illegal word never reaches the engine (60_exceptions R207), so for one the
host stands before its CMD write instead (log 14). -/
def State.placeCommand (s : State) (w : Word) : State :=
  match decode w with
  | .ok _ =>
    { s with block := { s.block with fsm := .idle }.writeCmd w
             schedule := .engine :: s.schedule }
  | .error _ =>
    { (s.loadProgram [.wr32 Reg.cmd.offset w]) with
        block := { s.block with fsm := .idle }
        schedule := .host :: s.schedule }

end Sys2Proof.Machine
end

