-- ==== Sys2Proof/Machine/Step.lean ====
section
/-! DEFINITION. One step of the machine: the turn of one agent, which is atomic (20_memory R72). -/

namespace Sys2Proof.Machine

/-- One step: the next turn is taken, by whoever has it. -/
def step (s : State) : Host.Outcome State Fault Refusal := s.takeTurn.agentStep s.nextAgent

/-- The state whose very next step runs the command with bits `w` (log 14): the command is issued
(30_encoding R92) and the engine's turn is next. -/
def State.withFetchWord (s : State) (nbits w : Nat) : State :=
  s.placeCommand (BitVec.ofNat 32 (w % 2 ^ nbits))

end Sys2Proof.Machine
end

