-- ==== Sys2Proof/Machine/OnePass.lean ====
section
/-! DEFINITION. A second design of the RLE encoder: one pass with one counter, no look-ahead, as an
implementation that streams its output would do it (60_exceptions R206). The machine does not use it:
a statement says that it computes the same function. -/

namespace Sys2Proof.Machine

/-- The pass with `n` copies of `x` counted and not yet emitted. -/
def rleScan : Nat → Byte → List Byte → List Byte
  | n, x, [] => [BitVec.ofNat 8 n, x]
  | n, x, y :: ys =>
    if y = x ∧ n < Config.rleMaxRun then rleScan (n + 1) x ys
    else BitVec.ofNat 8 n :: x :: rleScan 1 y ys

/-- The one-pass encoder. -/
def rleEncodeOnePass : List Byte → List Byte
  | [] => []
  | x :: xs => rleScan 1 x xs

end Sys2Proof.Machine
end

