-- ==== Sys2Proof/Safety.lean ====
section
/-! DEFINITION. The terms the statements use: the invariant of the block, what the host's turn is about
to do, and the three ways a command ends. -/

namespace Sys2Proof.Machine

/-! ### The invariant -/

/-- The codes STATUS.ERR can hold (60_exceptions R201, R208): not 3 and not 7 to 15. -/
abbrev ErrDefined (e : BitVec 4) : Prop :=
  e = 0#4 ∨ e = 1#4 ∨ e = 2#4 ∨ e = 4#4 ∨ e = 5#4 ∨ e = 6#4

/-- The invariant of the block, clause by clause. -/
structure Block.Inv (b : Block) : Prop where
  /-- The parameters are in their ranges (00_scope R7). -/
  legal : b.cfg.Legal
  /-- IBUF keeps its canonical form and its size (10_state R39, log 17). -/
  ibufForm : b.ibuf.wf b.cfg.ibufSize = true
  /-- OBUF keeps its canonical form and its size (10_state R40, log 17). -/
  obufForm : b.obuf.wf b.cfg.obufSize = true
  /-- STATUS.ERR never holds code 3 or 7 to 15 (60_exceptions R208). -/
  errDefined : ErrDefined b.err
  /-- "LATCHED_OP holds only 1 to 4 while FSM = BUSY" (60_exceptions R210). -/
  busyOp : b.fsm = .busy → 1 ≤ b.latchedOp.toNat ∧ b.latchedOp.toNat ≤ 4
  /-- While FSM = BUSY, DONE, ERR and OVERLONG are 0 (20_memory R71, 10_state R28). -/
  busyClean : b.fsm = .busy → b.done = false ∧ b.err = 0#4 ∧ b.overlong = false
  /-- An error code stands beside OUT_LEN 0, CONSUMED 0 and OVERLONG 0 (60_exceptions R202, R211). -/
  errorZero : b.err ≠ 0#4 → b.outLen = 0#32 ∧ b.consumed = 0#32 ∧ b.overlong = false
  /-- OVERLONG is the indicator of a VLQ_DECODE that succeeded, whose OUT_LEN is 0 (10_state R27). -/
  overlongZero : b.overlong = true → b.outLen = 0#32
  /-- The results lie within the buffers' sizes (10_state R34, R35). -/
  resultsFit : b.outLen.toNat ≤ b.cfg.obufSize ∧ b.consumed.toNat ≤ b.cfg.ibufSize

/-- The invariant of the machine: its block's. -/
abbrev State.Inv (s : State) : Prop := s.block.Inv

/-! ### What the next step is about -/

/-- The next step is the host's, its program runs, and the statement at its index is `st`. -/
abbrev State.RunsStatement (s : State) (st : Stmt) : Prop :=
  s.nextAgent = .host ∧ s.host.status = .running ∧ s.host.program[s.host.index]? = some st

/-- A turn of the engine comes, after some finite number of steps (60_exceptions R210, 70_reset R241: weak
fairness). -/
def State.EngineTurnComes (s : State) : Prop :=
  ∃ (k : Nat) (t : State), Host.Core.run Sys2Proof.core k s = .next t ∧ t.nextAgent = .engine

/-- The transaction `MemWrite(off, n, v)` a statement makes, where it makes one (30_encoding R100). -/
def Stmt.writeOf (h : HostAgent) (st : Stmt) : Option (Size × Offset × Word) :=
  match st with
  | .wr32 off imm => some (.four, off, imm)
  | .wr16 off imm => some (.two, off, imm.setWidth 32)
  | .wr8 off imm => some (.one, off, imm.setWidth 32)
  | .wrT n off k => (h.temp k).map fun v => (n, off, v)
  | _ => none

/-- The next step is a host write of the low `8n` bits of `v` at offset `a`. -/
abbrev State.HostWrites (s : State) (n : Size) (a : Offset) (v : Word) : Prop :=
  ∃ st, s.RunsStatement st ∧ st.writeOf s.host = some (n, a, v)

/-- The next step is a host read of `n` bytes at offset `a` into temporary `t`. -/
abbrev State.HostReads (s : State) (n : Size) (t : Temp) (a : Offset) : Prop :=
  (n = .four ∧ s.RunsStatement (.rd32 t a)) ∨ (n = .two ∧ s.RunsStatement (.rd16 t a)) ∨
    (n = .one ∧ s.RunsStatement (.rd8 t a))

/-- The registers whose writes are dropped while the engine is busy (20_memory R70). -/
abbrev Reg.Droppable (r : Reg) : Prop :=
  r = .cmd ∨ r = .inBase ∨ r = .inLen ∨ r = .outBase ∨ r = .outCap ∨ r = .value

/-- The read-only registers that ignore writes (20_memory R70). -/
abbrev Reg.ReadOnly (r : Reg) : Prop :=
  r = .outLen ∨ r = .consumed ∨ r = .id ∨ r = .version ∨ r = .ibufSizeReg ∨ r = .obufSizeReg

/-- The first offset of a buffer's window (20_memory R61). -/
def windowBase (which : Buffer) : Nat :=
  match which with
  | .ibuf => 0x10000
  | .obuf => 0x20000

/-- A write of `n` bytes at `a` is one the busy engine drops (20_memory R70): to a droppable register, or
a legal one to a buffer. -/
abbrev Block.Drops (b : Block) (n : Size) (a : Offset) : Prop :=
  (n = .four ∧ ∃ r : Reg, r.Droppable ∧ a = r.offset) ∨
    ∃ (which : Buffer) (i : Nat), a.toNat = windowBase which + i ∧ i + n.bytes ≤ b.bufSize which ∧
      i % n.bytes = 0

/-! ### How a command ends -/

/-- From `s` to `t` a command completed well with output `y` (30_encoding R96): the output bytes and the
results are written, and nothing else changes. -/
structure OutputCompletion (s t : State) (y : List Byte) (consumed : Word) : Prop where
  /-- All that changes, but for what OBUF holds. -/
  rest : t = { s with block := { s.block with
    obuf := t.block.obuf, outLen := t.block.outLen, consumed := consumed, err := 0#4,
    overlong := false, fsm := .idle, done := true } }
  /-- OUT_LEN is the number of bytes written (10_state R34). -/
  outLen : t.block.outLen.toNat = y.length
  /-- The output stands in OBUF from OUT_BASE on. -/
  written : ∀ (k : Nat) (h : k < y.length), t.block.byte .obuf (s.block.outBase.toNat + k) = y[k]
  /-- Every other OBUF byte is unchanged. -/
  outside : ∀ j, j < s.block.outBase.toNat ∨ s.block.outBase.toNat + y.length ≤ j →
    t.block.byte .obuf j = s.block.byte .obuf j
  /-- Every IBUF byte is unchanged. -/
  input : ∀ j, t.block.byte .ibuf j = s.block.byte .ibuf j

/-- From `s` to `t` a command completed with an error other than OUTPUT_OVERFLOW (60_exceptions R202):
nothing else changes, no buffer byte among them. -/
def ErrorCompletion (s t : State) (code : BitVec 4) : Prop :=
  t = { s with block := { s.block with
    outLen := 0#32, consumed := 0#32, err := code, overlong := false, fsm := .idle, done := true } }

/-- From `s` to `t` a command completed with OUTPUT_OVERFLOW (60_exceptions R206). -/
structure OverflowCompletion (s t : State) : Prop where
  /-- All that changes, but for what OBUF holds. -/
  rest : t = { s with block := { s.block with
    obuf := t.block.obuf, outLen := 0#32, consumed := 0#32, err := 5#4, overlong := false,
    fsm := .idle, done := true } }
  /-- A byte inside the output window holds a free value. -/
  inside : ∀ j, s.block.InOutWindow j → t.block.byte .obuf j = Config.overflowByte s.turn j
  /-- A byte outside the output window is unchanged. -/
  outside : ∀ j, ¬ s.block.InOutWindow j → t.block.byte .obuf j = s.block.byte .obuf j
  /-- Every IBUF byte is unchanged. -/
  input : ∀ j, t.block.byte .ibuf j = s.block.byte .ibuf j

/-- The value VLQ bytes accumulate to, least-significant group first, unbounded (41_vlq R162). -/
def vlqSum (y : List Byte) : Nat := y.foldr (fun x acc => x.toNat % 128 + 128 * acc) 0

end Sys2Proof.Machine
end

