-- ==== Sys2Proof/WellFormed.lean ====
section
/-! DEFINITION. Well-formedness. A command has no operand field (30_encoding R90), so every `Instr` is
well formed; the checks that can fail are the parameter ranges of 00_scope R7 and the form of a host
program in the notation of 30_encoding R100. -/

namespace Sys2Proof

/-- Every command is well formed: it has no field (30_encoding R90, R99). -/
def Instr.wellFormed (_i : Instr) : Bool := true

/-- The parameter ranges of 00_scope R7. -/
def Config.wellFormed (c : Config) : Bool := decide c.Legal

namespace Machine

/-- "A branch target is a statement number" (30_encoding R100): it is below the program's length. -/
def Stmt.wellFormed (len : Nat) (s : Stmt) : Bool :=
  match s with
  | .b target => decide (target < len)
  | .bnz _ target => decide (target < len)
  | .bz _ target => decide (target < len)
  | .wr32 _ _ => true
  | .wr16 _ _ => true
  | .wr8 _ _ => true
  | .rd32 _ _ => true
  | .rd16 _ _ => true
  | .rd8 _ _ => true
  | .wrT _ _ _ => true
  | .li _ _ => true
  | .andi _ _ _ => true
  | .srli _ _ _ => true
  | .add _ _ _ => true
  | .sub _ _ _ => true
  | .halt => true

/-- The bytes of a `LOADB` lie in the IBUF window (20_memory R61), so that `IBUF+k` stands for an
offset; every other pseudo-statement is well formed when what it expands to is. -/
def Pseudo.wellFormed (p : Pseudo) : Bool :=
  match p with
  | .loadb k bytes => decide (k + bytes.length ≤ 65536)
  | .stmt _ => true
  | .run op => match decode op with | .ok _ => true | .error _ => false
  | .wait _ => true
  | .ack => true

/-- Every branch of a program goes to one of its statements (30_encoding R100). -/
def programWellFormed (p : List Stmt) : Bool := p.all fun s => s.wellFormed p.length

end Machine

end Sys2Proof
end

