-- ==== Sys2Proof/Certificates/Slice0/Obligations.lean ====
section
/-! DEFINITION. The statements for the provers. Each cites the rule of spec/ it formalises. -/

open Sys2Proof Sys2Proof.Machine

/-! ### Encoding -/

/-- 30_encoding R91: the four words, and that the decoder matches the whole word, both ways; a command
latched from its word is the command the engine reads back. -/
def Obligations.DecodeEncodeAgreeOnEveryWord : Prop :=
  (encode .rleEncode = 0x00000001#32 ∧ encode .rleDecode = 0x00000002#32 ∧
    encode .vlqEncode = 0x00000003#32 ∧ encode .vlqDecode = 0x00000004#32) ∧
  (∀ (w : Word) (i : Instr), decode w = .ok i ↔ w = encode i) ∧
  (∀ w : Word, (∃ i, decode w = .ok i) ↔
    w.extractLsb' 4 28 = 0#28 ∧ 1 ≤ (w.extractLsb' 0 4).toNat ∧ (w.extractLsb' 0 4).toNat ≤ 4) ∧
  (∀ i : Instr, instrOfOp (opField (encode i)) = some i)

/-- 30_encoding R91: words written out bit by bit decode to the commands they stand for. -/
def Obligations.WrittenWordsDecode : Prop :=
  decode 0b00000000000000000000000000000001#32 = .ok .rleEncode ∧
  decode 0b00000000000000000000000000000010#32 = .ok .rleDecode ∧
  decode 0b00000000000000000000000000000011#32 = .ok .vlqEncode ∧
  decode 0b00000000000000000000000000000100#32 = .ok .vlqDecode

/-! ### Issue, illegal commands -/

/-- 30_encoding R92: a host write of `w` to CMD, in its three branches, and that no write changes an
operand between issue and completion. -/
def Obligations.CmdWriteIssuesDropsOrCompletes : Prop :=
  (∀ (b : Block) (w : Word),
    (b.fsm = .busy → b.busWrite Reg.cmd.offset .four w = some { b with wdrop := true }) ∧
    (b.fsm = .idle →
      w.extractLsb' 4 28 = 0#28 ∧ w.extractLsb' 0 4 ∈ [0x1#4, 0x2#4, 0x3#4, 0x4#4] →
      b.busWrite Reg.cmd.offset .four w =
        some { b with latchedOp := w.extractLsb' 0 4, fsm := .busy, done := false, err := 0#4,
                      overlong := false }) ∧
    (b.fsm = .idle →
      ¬ (w.extractLsb' 4 28 = 0#28 ∧ w.extractLsb' 0 4 ∈ [0x1#4, 0x2#4, 0x3#4, 0x4#4]) →
      b.busWrite Reg.cmd.offset .four w =
        some { b with outLen := 0#32, consumed := 0#32, err := 6#4, overlong := false, done := true })) ∧
  (∀ (b b' : Block) (a : Offset) (n : Size) (v : Word), b.fsm = .busy → b.busWrite a n v = some b' →
    b' = { b with done := b'.done, wdrop := b'.wdrop, ie := b'.ie })

/-- 60_exceptions R211: an illegal word written while FSM = IDLE completes inside the host's own step,
FSM stays IDLE, and nothing but the five listed fields changes. -/
def Obligations.IllegalCommandCompletesInItsWrite : Prop :=
  ∀ (s : State) (w : Word), s.block.fsm = .idle → s.HostWrites .four Reg.cmd.offset w →
    (∀ i, w ≠ encode i) →
    step s = .next { s.takeTurn with
      block := { s.block with outLen := 0#32, consumed := 0#32, err := 6#4, overlong := false,
                              done := true }
      host := { s.host with index := s.host.index + 1 } }

/-! ### Registers -/

/-- 10_state R24 (BUSY reads FSM), with the rest of the STATUS register: its fields as read, the reserved
bits 0, the effect of a write to it whatever FSM is, and that all of it is 0 after reset. -/
def Obligations.StatusReadsFieldsAndClearsOnOne : Prop :=
  ∀ (turn : Nat) (b : Block),
    (∃ w, b.busRead turn 0x04#18 .four = some w ∧
      (w.getLsbD 0 = true ↔ b.fsm = .busy) ∧ (w.getLsbD 0 = false ↔ b.fsm = .idle) ∧
      w.getLsbD 1 = b.done ∧ w.getLsbD 2 = b.wdrop ∧ w.getLsbD 3 = b.overlong ∧
      w.extractLsb' 4 4 = b.err ∧ w.extractLsb' 8 24 = 0#24) ∧
    (∀ w : Word, b.busWrite 0x04#18 .four w =
      some { b with done := if w.getLsbD 1 then false else b.done
                    wdrop := if w.getLsbD 2 then false else b.wdrop }) ∧
    (Block.reset b.cfg b.epoch).busRead turn 0x04#18 .four = some 0x00000000#32

/-- 10_state, the CTRL register: it reads as IE under 31 zero bits, and a write takes bit 0 only,
whatever FSM is. -/
def Obligations.CtrlHoldsInterruptEnableOnly : Prop :=
  ∀ (turn : Nat) (b : Block) (w : Word),
    b.busWrite 0x08#18 .four w = some { b with ie := w.getLsbD 0 } ∧
    ∃ r, b.busRead turn 0x08#18 .four = some r ∧ r.getLsbD 0 = b.ie ∧ r.extractLsb' 1 31 = 0#31

/-- 10_state, the operand registers: each of IN_BASE, IN_LEN, OUT_BASE, OUT_CAP and VALUE takes any
32-bit value as it is while FSM = IDLE, reads it back, and changes nothing else. -/
def Obligations.OperandRegistersHoldWhatIsWritten : Prop :=
  ∀ (turn : Nat) (b : Block) (v : Word), b.fsm = .idle →
    (b.busWrite 0x0C#18 .four v = some { b with inBase := v } ∧
      { b with inBase := v }.busRead turn 0x0C#18 .four = some v) ∧
    (b.busWrite 0x10#18 .four v = some { b with inLen := v } ∧
      { b with inLen := v }.busRead turn 0x10#18 .four = some v) ∧
    (b.busWrite 0x14#18 .four v = some { b with outBase := v } ∧
      { b with outBase := v }.busRead turn 0x14#18 .four = some v) ∧
    (b.busWrite 0x18#18 .four v = some { b with outCap := v } ∧
      { b with outCap := v }.busRead turn 0x18#18 .four = some v) ∧
    (b.busWrite 0x24#18 .four v = some { b with value := v } ∧
      { b with value := v }.busRead turn 0x24#18 .four = some v)

/-- 10_state R37, R38: the four constants, whatever the state; ID's four little-endian bytes are the
ASCII text "ASCV"; writes to them are ignored. -/
def Obligations.IdentificationRegistersAreConstant : Prop :=
  ∀ (turn : Nat) (b : Block) (v : Word),
    b.busRead turn 0x28#18 .four = some 0x56435341#32 ∧
    leBytes 4 0x56435341#32 = [0x41#8, 0x53#8, 0x43#8, 0x56#8] ∧
    b.busRead turn 0x2C#18 .four = some 0x00000001#32 ∧
    (b.cfg.Legal → ∃ w, b.busRead turn 0x30#18 .four = some w ∧ w.toNat = b.cfg.ibufSize) ∧
    (b.cfg.Legal → ∃ w, b.busRead turn 0x34#18 .four = some w ∧ w.toNat = b.cfg.obufSize) ∧
    b.busWrite 0x28#18 .four v = some b ∧ b.busWrite 0x2C#18 .four v = some b ∧
    b.busWrite 0x30#18 .four v = some b ∧ b.busWrite 0x34#18 .four v = some b

/-! ### Bus -/

/-- 20_memory R63: which transactions in the register page are legal. -/
def Obligations.RegisterPageLegality : Prop :=
  ∀ (turn : Nat) (b : Block) (a : Offset) (n : Size) (v : Word), a.toNat < 0x10000 →
    ((b.busRead turn a n).isSome = true ↔
      (n.bytes = 4 ∧ a.toNat % 4 = 0) ∧ a.toNat ≤ 0x34) ∧
    ((b.busWrite a n v).isSome = true ↔
      (n.bytes = 4 ∧ a.toNat % 4 = 0) ∧ a.toNat ≤ 0x34)

/-- 20_memory R64: which transactions in the buffer windows are legal. -/
def Obligations.BufferWindowLegality : Prop :=
  ∀ (turn : Nat) (b : Block) (a : Offset) (n : Size) (v : Word),
    (0x10000 ≤ a.toNat → a.toNat < 0x20000 →
      ((b.busRead turn a n).isSome = true ↔
        a.toNat % n.bytes = 0 ∧ (a.toNat - 0x10000) + n.bytes ≤ b.cfg.ibufSize) ∧
      ((b.busWrite a n v).isSome = true ↔
        a.toNat % n.bytes = 0 ∧ (a.toNat - 0x10000) + n.bytes ≤ b.cfg.ibufSize)) ∧
    (0x20000 ≤ a.toNat → a.toNat < 0x30000 →
      ((b.busRead turn a n).isSome = true ↔
        a.toNat % n.bytes = 0 ∧ (a.toNat - 0x20000) + n.bytes ≤ b.cfg.obufSize) ∧
      ((b.busWrite a n v).isSome = true ↔
        a.toNat % n.bytes = 0 ∧ (a.toNat - 0x20000) + n.bytes ≤ b.cfg.obufSize))

/-- 20_memory R65: offsets that hold nothing are illegal to read and to write, at every size. -/
def Obligations.UnmappedOffsetsAreIllegal : Prop :=
  ∀ (turn : Nat) (b : Block) (a : Offset) (n : Size) (v : Word),
    (0x30000 ≤ a.toNat ∨ (a.toNat < 0x10000 ∧ ∀ r : Reg, a ≠ r.offset) ∨
      (0x10000 + b.cfg.ibufSize ≤ a.toNat ∧ 0x10000 ≤ a.toNat ∧ a.toNat < 0x20000) ∨
      (0x20000 + b.cfg.obufSize ≤ a.toNat ∧ 0x20000 ≤ a.toNat ∧ a.toNat < 0x30000)) →
    b.busRead turn a n = none ∧ b.busWrite a n v = none

/-- 20_memory (illegal transactions) and 30_encoding (host notation): a transaction that answers ERR
leaves the block as it is and ends the host program with a bus-error fault at its statement. The
statements' form, ending the program in the host's status, is the model's choice (log 12). -/
def Obligations.BusErrorEndsTheHostProgram : Prop :=
  ∀ (s : State) (n : Size) (a : Offset),
    ((∃ v, s.HostWrites n a v ∧ s.block.busWrite a n v = none) ∨
      (∃ t, s.HostReads n t a ∧ s.block.busRead (s.turn + 1) a n = none)) →
    step s = .next { s.takeTurn with host := { s.host with status := .faulted .busError } }

/-- 20_memory R67: a legal read of a buffer returns the bytes at its offsets, the byte at the lowest
offset in bits 7:0, and a 4-byte register read the register's value, which at FSM = IDLE is for each
register what it holds; no other size reaches a register. -/
def Obligations.BufferReadsAreLittleEndian : Prop :=
  (∀ (turn : Nat) (b : Block) (which : Buffer) (a : Offset) (i : Nat) (n : Size),
    a.toNat = windowBase which + i → i % n.bytes = 0 → i + n.bytes ≤ b.bufSize which →
    b.cfg.Legal →
    ∃ v, b.busRead turn a n = some v ∧ v.toNat < 2 ^ (8 * n.bytes) ∧
      ∀ k, k < n.bytes → v.extractLsb' (8 * k) 8 = b.readByte turn which (i + k)) ∧
  (∀ (turn : Nat) (b : Block) (which : Buffer) (i : Nat), b.fsm = .idle →
    b.readByte turn which i = b.byte which i) ∧
  (∀ (turn : Nat) (b : Block) (r : Reg), b.busRead turn r.offset .four = some (b.readReg turn r)) ∧
  (∀ (turn : Nat) (b : Block), b.busRead turn 0x00#18 .four = some 0#32 ∧
    b.busRead turn 0x0C#18 .four = some b.inBase ∧ b.busRead turn 0x10#18 .four = some b.inLen ∧
    b.busRead turn 0x14#18 .four = some b.outBase ∧ b.busRead turn 0x18#18 .four = some b.outCap ∧
    (b.fsm = .idle → b.busRead turn 0x1C#18 .four = some b.outLen ∧
      b.busRead turn 0x20#18 .four = some b.consumed ∧
      b.busRead turn 0x24#18 .four = some b.value)) ∧
  (∀ (turn : Nat) (b : Block) (r : Reg) (n : Size), n ≠ .four → b.busRead turn r.offset n = none)

/-- 20_memory R68: a legal write of a buffer while FSM = IDLE stores byte `k` of the value at index
`i + k` and changes no other byte of either buffer and nothing else; while FSM = BUSY it is dropped. A
4-byte write then a 1-byte read of its second byte returns bits 15:8. -/
def Obligations.BufferWritesStoreLittleEndian : Prop :=
  ∀ (turn : Nat) (b : Block) (which : Buffer) (a : Offset) (i : Nat) (n : Size) (v : Word),
    a.toNat = windowBase which + i → i % n.bytes = 0 → i + n.bytes ≤ b.bufSize which →
    b.cfg.Legal →
    (b.fsm = .busy → b.busWrite a n v = some { b with wdrop := true }) ∧
    (b.fsm = .idle → ∃ b', b.busWrite a n v = some b' ∧
      b' = { b with ibuf := b'.ibuf, obuf := b'.obuf } ∧
      (∀ k, k < n.bytes → b'.byte which (i + k) = v.extractLsb' (8 * k) 8) ∧
      (∀ (which' : Buffer) (j : Nat), which' ≠ which ∨ j < i ∨ i + n.bytes ≤ j →
        b'.byte which' j = b.byte which' j) ∧
      (n = .four → b'.busRead turn (a + 1#18) .one = some ((v.extractLsb' 8 8).setWidth 32)))

/-- 20_memory (side effects): a host read changes nothing of the block, and every legal read is
idempotent but for the values that are unspecified while the engine is busy. That this takes in bytes
nothing has written is the model's reading (log 5, DEDUCED). -/
def Obligations.ReadsHaveNoSideEffect : Prop :=
  (∀ (s t : State) (n : Size) (d : Temp) (a : Offset), s.HostReads n d a → step s = .next t →
    t.block = s.block) ∧
  (∀ (turn turn' : Nat) (b : Block) (a : Offset) (n : Size),
    (b.fsm = .idle ∨
      (a ≠ Reg.outLen.offset ∧ a ≠ Reg.consumed.offset ∧ a ≠ Reg.value.offset ∧
        (b.RunsOutputCommand → ∀ k, k < n.bytes → a.toNat < 0x20000 ∨
          ¬ b.InOutWindow (a.toNat - 0x20000 + k)))) →
    b.busRead turn a n = b.busRead turn' a n)

/-- 20_memory R70: the whole table of legal writes, at FSM = IDLE and at FSM = BUSY. -/
def Obligations.LegalWritesFollowTheTable : Prop :=
  ∀ (b : Block) (v : Word),
    (∀ r : Reg, r.Droppable → b.fsm = .busy →
      b.busWrite r.offset .four v = some { b with wdrop := true }) ∧
    (∀ r : Reg, r.ReadOnly → b.busWrite r.offset .four v = some b) ∧
    (b.fsm = .idle → (∀ i, v ≠ encode i) → b.busWrite Reg.cmd.offset .four v =
      some { b with outLen := 0#32, consumed := 0#32, err := 6#4, overlong := false, done := true }) ∧
    (b.fsm = .idle → ∀ i, v = encode i → b.busWrite Reg.cmd.offset .four v =
      some { b with latchedOp := opOfInstr i, fsm := .busy, done := false, err := 0#4,
                    overlong := false }) ∧
    b.busWrite Reg.status.offset .four v =
      some { b with done := b.done && !v.getLsbD 1, wdrop := b.wdrop && !v.getLsbD 2 } ∧
    b.busWrite Reg.ctrl.offset .four v = some { b with ie := v.getLsbD 0 } ∧
    (b.fsm = .idle →
      b.busWrite Reg.inBase.offset .four v = some { b with inBase := v } ∧
      b.busWrite Reg.inLen.offset .four v = some { b with inLen := v } ∧
      b.busWrite Reg.outBase.offset .four v = some { b with outBase := v } ∧
      b.busWrite Reg.outCap.offset .four v = some { b with outCap := v } ∧
      b.busWrite Reg.value.offset .four v = some { b with value := v }) ∧
    (∀ (which : Buffer) (a : Offset) (i : Nat) (n : Size), b.cfg.Legal →
      a.toNat = windowBase which + i → i % n.bytes = 0 → i + n.bytes ≤ b.bufSize which →
      (b.fsm = .busy → b.busWrite a n v = some { b with wdrop := true }) ∧
      (b.fsm = .idle → b.busWrite a n v = some (b.storeBytes which i (leBytes n.bytes v))))

/-- 20_memory (reads while BUSY; the draws' form is log 7, a DESIGN CHOICE): while FSM = BUSY a read of OUT_LEN, CONSUMED or VALUE, or of an OBUF byte in the
output window of a running RLE_ENCODE, RLE_DECODE or VLQ_ENCODE, does not depend on what is stored;
every other read returns the stored value; STATUS reads as BUSY with WDROP as stored. -/
def Obligations.BusyReadsHideResults : Prop :=
  ∀ (turn : Nat) (b : Block), b.fsm = .busy →
    (∀ r : Reg, r = .outLen ∨ r = .consumed ∨ r = .value →
      ∀ x y z : Word, { b with outLen := x, consumed := y, value := z }.busRead turn r.offset .four =
        b.busRead turn r.offset .four ∧ (b.busRead turn r.offset .four).isSome = true) ∧
    (∀ (i : Nat) (m : Memory), b.latchedOp ∈ [0x1#4, 0x2#4, 0x3#4] → b.InOutWindow i →
      { b with obuf := m }.readByte turn .obuf i = b.readByte turn .obuf i) ∧
    (∀ i : Nat, b.readByte turn .ibuf i = b.byte .ibuf i) ∧
    (∀ i : Nat, b.latchedOp ∉ [0x1#4, 0x2#4, 0x3#4] ∨ ¬ b.InOutWindow i →
      b.readByte turn .obuf i = b.byte .obuf i) ∧
    (b.busRead turn Reg.cmd.offset .four = some 0#32 ∧
      b.busRead turn Reg.inBase.offset .four = some b.inBase ∧
      b.busRead turn Reg.inLen.offset .four = some b.inLen ∧
      b.busRead turn Reg.outBase.offset .four = some b.outBase ∧
      b.busRead turn Reg.outCap.offset .four = some b.outCap) ∧
    (b.Inv → b.busRead turn Reg.status.offset .four = some (if b.wdrop then 0x5#32 else 0x1#32))

/-! ### The codec functions -/

/-- 40_rle R120: the encoder pair by pair, and what it makes of a run of any length. -/
def Obligations.RleEncodeScansMaximalRuns : Prop :=
  rleEncode [] = [] ∧
  (∀ (x : Byte) (xs : List Byte),
    rleEncode (x :: xs) =
      [BitVec.ofNat 8 (min (1 + (xs.takeWhile (· == x)).length) 255), x] ++
        rleEncode ((x :: xs).drop (min (1 + (xs.takeWhile (· == x)).length) 255))) ∧
  (∀ (n : Nat) (x : Byte) (rest : List Byte), rest.head? ≠ some x →
    rleEncode (List.replicate n x ++ rest) =
      (List.replicate (n / 255) [0xFF#8, x]).flatten ++
        (if n % 255 = 0 then [] else [BitVec.ofNat 8 (n % 255), x]) ++ rleEncode rest)

/-- 40_rle R121, clauses (a) to (g) in order. -/
def Obligations.RleEncodeProperties : Prop :=
  ∀ x : List Byte,
    rleEncode [] = [] ∧
    (rleEncode x).length % 2 = 0 ∧
    (∀ j, 2 * j < (rleEncode x).length →
      1 ≤ ((rleEncode x).getD (2 * j) 0).toNat ∧ ((rleEncode x).getD (2 * j) 0).toNat ≤ 255) ∧
    (∀ j, 2 * j + 3 < (rleEncode x).length →
      (rleEncode x).getD (2 * j + 1) 0 = (rleEncode x).getD (2 * j + 3) 0 →
      (rleEncode x).getD (2 * j) 0 = 0xFF#8) ∧
    (rleEncode x).length =
      2 * ((x.splitBy (· == ·)).map fun run => (run.length + 254) / 255).sum ∧
    ((rleEncode x).length ≤ 2 * x.length ∧
      ((rleEncode x).length = 2 * x.length ↔
        ∀ (k : Nat) (h : k + 1 < x.length), x[k] ≠ x[k + 1])) ∧
    ((List.range ((rleEncode x).length / 2)).map
      fun j => ((rleEncode x).getD (2 * j) 0).toNat).sum = x.length

/-- 40_rle R122: odd length is refused whole; otherwise pair `j` expands to `y[2j]` copies of
`y[2j+1]`, in order. -/
def Obligations.RleDecodeExpandsPairs : Prop :=
  ∀ y : List Byte,
    (y.length % 2 = 1 → rleDecode y = .error .malformedData) ∧
    (y.length % 2 = 0 → rleDecode y = .ok ((List.range (y.length / 2)).flatMap
      fun j => List.replicate (y.getD (2 * j) 0).toNat (y.getD (2 * j + 1) 0)))

/-- 40_rle R123, clauses (a) to (f) in order. -/
def Obligations.RleDecodeProperties : Prop :=
  rleDecode [] = .ok [] ∧
  (∀ (y z : List Byte) (v : Byte), y.length % 2 = 0 → rleDecode (y ++ [0#8, v] ++ z) = rleDecode (y ++ z)) ∧
  rleDecode [0x01#8, 0x41#8, 0x01#8, 0x41#8] = .ok [0x41#8, 0x41#8] ∧
  (∀ y x : List Byte, rleDecode y = .ok x →
    x.length = ((List.range (y.length / 2)).map fun j => (y.getD (2 * j) 0).toNat).sum ∧
    x.length ≤ 255 * y.length / 2) ∧
  (∀ x : List Byte, rleDecode (rleEncode x) = .ok x) ∧
  rleEncode [0x41#8, 0x41#8] = [0x02#8, 0x41#8]

/-- 40_rle (the encoder's scan): the one-pass design with a single counter computes the encoder. -/
def Obligations.RleOnePassDesignIsEquivalent : Prop :=
  ∀ x : List Byte, rleEncodeOnePass x = rleEncode x

/-- 41_vlq R160: the encoder group by group; `0` is the single byte `[00]`. -/
def Obligations.VlqEncodeEmitsGroups : Prop :=
  vlqEncode 0#32 = [0x00#8] ∧
  ∀ v : Word,
    (v >>> 7 ≠ 0#32 → vlqEncode v = [(v &&& 0x7F#32).setWidth 8 ||| 0x80#8] ++ vlqEncode (v >>> 7)) ∧
    (v >>> 7 = 0#32 → vlqEncode v = [(v &&& 0x7F#32).setWidth 8])

/-- 41_vlq R161: the length of an encoding and its last byte, by the range of the value. -/
def Obligations.VlqEncodeLengthTable : Prop :=
  ∀ v : Word,
    (v.toNat ≤ 0x7F → (vlqEncode v).length = 1 ∧
      (vlqEncode v).getLast? = some (BitVec.ofNat 8 v.toNat)) ∧
    (0x80 ≤ v.toNat → v.toNat ≤ 0x3FFF → (vlqEncode v).length = 2 ∧
      (vlqEncode v).getLast? = some (BitVec.ofNat 8 (v.toNat >>> 7)) ∧
      0x01 ≤ v.toNat >>> 7 ∧ v.toNat >>> 7 ≤ 0x7F) ∧
    (0x4000 ≤ v.toNat → v.toNat ≤ 0x1FFFFF → (vlqEncode v).length = 3 ∧
      (vlqEncode v).getLast? = some (BitVec.ofNat 8 (v.toNat >>> 14)) ∧
      0x01 ≤ v.toNat >>> 14 ∧ v.toNat >>> 14 ≤ 0x7F) ∧
    (0x200000 ≤ v.toNat → v.toNat ≤ 0x0FFFFFFF → (vlqEncode v).length = 4 ∧
      (vlqEncode v).getLast? = some (BitVec.ofNat 8 (v.toNat >>> 21)) ∧
      0x01 ≤ v.toNat >>> 21 ∧ v.toNat >>> 21 ≤ 0x7F) ∧
    (0x10000000 ≤ v.toNat → (vlqEncode v).length = 5 ∧
      (vlqEncode v).getLast? = some (BitVec.ofNat 8 (v.toNat >>> 28)) ∧
      0x01 ≤ v.toNat >>> 28 ∧ v.toNat >>> 28 ≤ 0x0F) ∧
    (vlqEncode v).length ≤ 5 ∧
    (2 ≤ (vlqEncode v).length → (vlqEncode v).getLast? ≠ some 0x00#8)

/-- 41_vlq R162: the decoder reads up to the first byte with bit 7 clear, whatever follows, and fails
exactly when there is none. -/
def Obligations.VlqDecodeReadsToTerminator : Prop :=
  (∀ y : List Byte, (∀ x ∈ y, x.getLsbD 7 = true) → vlqDecode y = .error .endOfInput) ∧
  (∀ (pre rest : List Byte) (last : Byte),
    (∀ x ∈ pre, x.getLsbD 7 = true) → last.getLsbD 7 = false →
    vlqDecode (pre ++ [last] ++ rest) =
      .ok { value := BitVec.ofNat 32 (vlqSum (pre ++ [last]) % 2 ^ 32)
            consumed := pre.length + 1
            overlong := decide (pre.length + 1 > 5 ∨ vlqSum (pre ++ [last]) ≥ 2 ^ 32) })

/-- 41_vlq R163, clauses (a) to (g) in order; (b), (c), (e) and (f) for every input of their kind, and
then the rule's examples. -/
def Obligations.VlqDecodeProperties : Prop :=
  (∀ v : Word, vlqDecode (vlqEncode v) =
    .ok { value := v, consumed := (vlqEncode v).length, overlong := false }) ∧
  ((∀ (pre rest : List Byte) (last : Byte), (∀ x ∈ pre, x.getLsbD 7 = true) →
      last.getLsbD 7 = false → vlqDecode (pre ++ [last] ++ rest) = vlqDecode (pre ++ [last])) ∧
    ∀ (v : Word) (z : List Byte), vlqDecode (vlqEncode v ++ z) = vlqDecode (vlqEncode v)) ∧
  ((∀ (pre : List Byte) (last : Byte) (n : Nat), (∀ x ∈ pre, x.getLsbD 7 = true) →
      last.getLsbD 7 = false →
      ∃ r r', vlqDecode (pre ++ [last]) = .ok r ∧
        vlqDecode (pre ++ [last ||| 0x80#8] ++ List.replicate n 0x80#8 ++ [0x00#8]) = .ok r' ∧
        r'.value = r.value ∧ r'.consumed = r.consumed + n + 1) ∧
    vlqDecode [0x80#8, 0x00#8] = .ok { value := 0#32, consumed := 2, overlong := false } ∧
    vlqDecode [0xFF#8, 0x80#8, 0x00#8] = .ok { value := 127#32, consumed := 3, overlong := false }) ∧
  (vlqDecode [] = .error .endOfInput ∧
    ∀ y : List Byte, (∀ x ∈ y, x.getLsbD 7 = true) → vlqDecode y = .error .endOfInput) ∧
  ((∀ (y : List Byte) (r : VlqResult), vlqDecode y = .ok r →
      r.value.toNat = vlqSum (y.take r.consumed) % 2 ^ 32 ∧
      (2 ^ 32 ≤ vlqSum (y.take r.consumed) → r.overlong = true)) ∧
    vlqDecode [0xFF#8, 0xFF#8, 0xFF#8, 0xFF#8, 0x7F#8] =
      .ok { value := 0xFFFFFFFF#32, consumed := 5, overlong := true } ∧
    vlqDecode [0x80#8, 0x80#8, 0x80#8, 0x80#8, 0x10#8] =
      .ok { value := 0#32, consumed := 5, overlong := true }) ∧
  ((∀ (pre rest : List Byte) (last : Byte), (∀ x ∈ pre, x.getLsbD 7 = true) →
      last.getLsbD 7 = false → 5 ≤ pre.length →
      ∃ r, vlqDecode (pre ++ [last] ++ rest) = .ok r ∧ r.consumed = pre.length + 1 ∧
        r.overlong = true) ∧
    vlqDecode [0x80#8, 0x80#8, 0x80#8, 0x80#8, 0x80#8, 0x00#8] =
      .ok { value := 0#32, consumed := 6, overlong := true }) ∧
  ((∀ (y : List Byte) (r : VlqResult), vlqDecode y = .ok r →
      (r.overlong = false ↔ r.consumed ≤ 5 ∧ vlqSum (y.take r.consumed) < 2 ^ 32)) ∧
    ∀ v : Word, (vlqEncode v).length ≤ 5 ∧ vlqSum (vlqEncode v) < 2 ^ 32)

/-! ### The commands -/

/-- 40_rle, RLE_ENCODE: with both windows in bounds and room for the encoding it completes with the
encoding of the input window in OBUF, OUT_LEN its length, CONSUMED = IN_LEN, and nothing else changed. -/
def Obligations.RleEncodeWritesTheEncoding : Prop :=
  ∀ s : State, s.block.InWindowOk → s.block.OutWindowOk →
    (rleEncode (s.block.inWindow s.turn)).length ≤ s.block.outCap.toNat →
    ∃ t, exec .rleEncode s = .next t ∧
      OutputCompletion s t (rleEncode (s.block.inWindow s.turn)) s.block.inLen

/-- 40_rle, RLE_DECODE: with both windows in bounds, IN_LEN even and room for the expansion it completes
with the expansion of the input window in OBUF, and nothing else changed. -/
def Obligations.RleDecodeWritesTheExpansion : Prop :=
  ∀ (s : State) (x : List Byte), s.block.InWindowOk → s.block.OutWindowOk →
    s.block.inLen.toNat % 2 = 0 → rleDecode (s.block.inWindow s.turn) = .ok x →
    x.length ≤ s.block.outCap.toNat →
    ∃ t, exec .rleDecode s = .next t ∧ OutputCompletion s t x s.block.inLen

/-- 41_vlq, VLQ_ENCODE: with the output window in bounds and room for the encoding it completes with the
encoding of VALUE in OBUF and CONSUMED 0, whatever IN_BASE and IN_LEN are, and nothing else changed. -/
def Obligations.VlqEncodeWritesTheEncoding : Prop :=
  ∀ s : State, s.block.OutWindowOk → (vlqEncode s.block.value).length ≤ s.block.outCap.toNat →
    ∃ t, exec .vlqEncode s = .next t ∧ OutputCompletion s t (vlqEncode s.block.value) 0#32

/-- 41_vlq, VLQ_DECODE: with the input window in bounds and a terminating byte in it, it completes with
the decoded VALUE, CONSUMED and OVERLONG and OUT_LEN 0, whatever OUT_BASE and OUT_CAP are; IN_BASE is
not advanced, no buffer byte and nothing else changes, and `1 <= CONSUMED <= IN_LEN`. -/
def Obligations.VlqDecodeSetsValue : Prop :=
  ∀ s : State, s.block.InWindowOk → (∃ x ∈ s.block.inWindow s.turn, x.getLsbD 7 = false) →
    ∃ r, vlqDecode (s.block.inWindow s.turn) = .ok r ∧
      exec .vlqDecode s = .next { s with block := { s.block with
        value := r.value, consumed := BitVec.ofNat 32 r.consumed, outLen := 0#32, err := 0#4,
        overlong := r.overlong, fsm := .idle, done := true } } ∧
      1 ≤ r.consumed ∧ r.consumed ≤ s.block.inLen.toNat ∧
      (BitVec.ofNat 32 r.consumed : Word).toNat = r.consumed

/-- 60_exceptions R205: each command completes with BOUNDS exactly when a window it uses is out of
bounds, and then changes no buffer byte. -/
def Obligations.BoundsIsCheckedFirst : Prop :=
  ∀ s : State,
    (¬ (s.block.InWindowOk ∧ s.block.OutWindowOk) →
      (∃ t, exec .rleEncode s = .next t ∧ ErrorCompletion s t 4#4) ∧
      (∃ t, exec .rleDecode s = .next t ∧ ErrorCompletion s t 4#4)) ∧
    (¬ s.block.OutWindowOk → ∃ t, exec .vlqEncode s = .next t ∧ ErrorCompletion s t 4#4) ∧
    (¬ s.block.InWindowOk → ∃ t, exec .vlqDecode s = .next t ∧ ErrorCompletion s t 4#4) ∧
    (∀ (i : Instr) (t : State), exec i s = .next t → t.block.err = 4#4 →
      (i = .rleEncode ∨ i = .rleDecode) ∧ ¬ (s.block.InWindowOk ∧ s.block.OutWindowOk) ∨
      i = .vlqEncode ∧ ¬ s.block.OutWindowOk ∨ i = .vlqDecode ∧ ¬ s.block.InWindowOk)

/-- 60_exceptions R203: MALFORMED_DATA, by RLE_DECODE alone, with its windows in bounds and IN_LEN odd;
no OBUF byte changes. -/
def Obligations.MalformedDataOnOddLength : Prop :=
  ∀ s : State,
    (s.block.InWindowOk → s.block.OutWindowOk → s.block.inLen.toNat % 2 = 1 →
      ∃ t, exec .rleDecode s = .next t ∧ ErrorCompletion s t 1#4) ∧
    (∀ (i : Instr) (t : State), exec i s = .next t → t.block.err = 1#4 →
      i = .rleDecode ∧ s.block.InWindowOk ∧ s.block.OutWindowOk ∧ s.block.inLen.toNat % 2 = 1)

/-- 60_exceptions R204: END_OF_INPUT, by VLQ_DECODE alone, with its window in bounds and no byte of it
with bit 7 clear, `IN_LEN = 0` among the cases. -/
def Obligations.EndOfInputWithoutTerminator : Prop :=
  ∀ s : State,
    (s.block.InWindowOk → (∀ x ∈ s.block.inWindow s.turn, x.getLsbD 7 = true) →
      ∃ t, exec .vlqDecode s = .next t ∧ ErrorCompletion s t 2#4) ∧
    (s.block.InWindowOk → s.block.inLen = 0#32 →
      ∃ t, exec .vlqDecode s = .next t ∧ ErrorCompletion s t 2#4) ∧
    (∀ (i : Instr) (t : State), exec i s = .next t → t.block.err = 2#4 →
      i = .vlqDecode ∧ s.block.InWindowOk ∧ ∀ x ∈ s.block.inWindow s.turn, x.getLsbD 7 = true)

/-- 60_exceptions (OUTPUT_OVERFLOW): it is raised when the output is longer than OUT_CAP; OBUF bytes
outside the output window are unchanged and those inside hold free values, whose form is the model's
choice (log 8, a DESIGN CHOICE). -/
def Obligations.OutputOverflowClobbersTheWindow : Prop :=
  ∀ s : State,
    (s.block.OutWindowOk →
      (s.block.InWindowOk → s.block.outCap.toNat < (rleEncode (s.block.inWindow s.turn)).length →
        ∃ t, exec .rleEncode s = .next t ∧ OverflowCompletion s t) ∧
      (∀ x, s.block.InWindowOk → rleDecode (s.block.inWindow s.turn) = .ok x →
        s.block.outCap.toNat < x.length →
        ∃ t, exec .rleDecode s = .next t ∧ OverflowCompletion s t) ∧
      (s.block.outCap.toNat < (vlqEncode s.block.value).length →
        ∃ t, exec .vlqEncode s = .next t ∧ OverflowCompletion s t)) ∧
    (∀ (i : Instr) (t : State), exec i s = .next t → t.block.err = 5#4 →
      s.block.OutWindowOk ∧
        (i = .rleEncode ∧ s.block.InWindowOk ∧
            s.block.outCap.toNat < (rleEncode (s.block.inWindow s.turn)).length ∨
          i = .rleDecode ∧ s.block.InWindowOk ∧
            (∃ x, rleDecode (s.block.inWindow s.turn) = .ok x ∧ s.block.outCap.toNat < x.length) ∨
          i = .vlqEncode ∧ s.block.outCap.toNat < (vlqEncode s.block.value).length))

/-- 60_exceptions (raise): what an error of a command changes, whichever it is: OBUF only for
OUTPUT_OVERFLOW, and VALUE, the operands, CTRL, WDROP and IBUF never. -/
def Obligations.CommandErrorsChangeOnlyResults : Prop :=
  ∀ (i : Instr) (s t : State), exec i s = .next t → t.block.err ≠ 0#4 →
    t = { s with block := { s.block with
      obuf := t.block.obuf, outLen := 0#32, consumed := 0#32, err := t.block.err, overlong := false,
      fsm := .idle, done := true } } ∧
    t.block.err ∈ [1#4, 2#4, 4#4, 5#4] ∧ (t.block.err ≠ 5#4 → t.block.obuf = s.block.obuf)

/-- 60_exceptions (completion) and 20_memory (the engine's accesses): every command completes, leaves
the block IDLE with DONE set, writes no IBUF byte, writes OBUF only inside the output window and not at
all for VLQ_DECODE, and leaves the rest of the machine as it was; VALUE only VLQ_DECODE writes. -/
def Obligations.EveryCommandCompletesWithinItsFrame : Prop :=
  ∀ (i : Instr) (s : State), ∃ t, exec i s = .next t ∧
    t = { s with block := { s.block with
      obuf := t.block.obuf, outLen := t.block.outLen, consumed := t.block.consumed,
      value := t.block.value, err := t.block.err, overlong := t.block.overlong, fsm := .idle,
      done := true } } ∧
    (∀ j, t.block.byte .ibuf j = s.block.byte .ibuf j) ∧
    (∀ j, i = .vlqDecode ∨ ¬ s.block.InOutWindow j → t.block.byte .obuf j = s.block.byte .obuf j) ∧
    (i ≠ .vlqDecode → t.block.value = s.block.value ∧ t.block.overlong = false)

/-- 20_memory (the engine reads only the input window): of two states that differ only in IBUF and agree
on the bytes of the input window, a command makes states that differ only in IBUF; VLQ_ENCODE does not
read IBUF, IN_BASE or IN_LEN at all. -/
def Obligations.CommandsReadOnlyTheirInputWindow : Prop :=
  (∀ (i : Instr) (s t : State) (m : Memory),
    (∀ j, s.block.inBase.toNat ≤ j → j < s.block.inBase.toNat + s.block.inLen.toNat →
      m.lookup j = s.block.ibuf.lookup j) →
    exec i s = .next t →
    exec i { s with block := { s.block with ibuf := m } } =
      .next { t with block := { t.block with ibuf := m } }) ∧
  (∀ (s t : State) (m : Memory) (x y : Word), exec .vlqEncode s = .next t →
    exec .vlqEncode { s with block := { s.block with ibuf := m, inBase := x, inLen := y } } =
      .next { t with block := { t.block with ibuf := m, inBase := x, inLen := y } })

/-- 20_memory (VLQ_DECODE reads sequentially and stops at the terminating byte): the bytes after the
terminating byte, and what follows it in the window, do not affect its result. -/
def Obligations.VlqDecodeStopsAtTerminator : Prop :=
  ∀ (s t : State) (m : Memory) (k : Nat), s.block.InWindowOk → k < s.block.inLen.toNat →
    (s.block.engineByte s.turn (s.block.inBase.toNat + k)).getLsbD 7 = false →
    (∀ j, s.block.inBase.toNat ≤ j → j ≤ s.block.inBase.toNat + k →
      m.lookup j = s.block.ibuf.lookup j) →
    exec .vlqDecode s = .next t →
    exec .vlqDecode { s with block := { s.block with ibuf := m } } =
      .next { t with block := { t.block with ibuf := m } }

/-- 40_rle R126: with both windows in bounds and `OUT_CAP >= 2 * IN_LEN`, RLE_ENCODE always completes
with ERR = 0. -/
def Obligations.RleEncodeNeverFailsWithRoom : Prop :=
  ∀ s : State, s.block.InWindowOk → s.block.OutWindowOk →
    2 * s.block.inLen.toNat ≤ s.block.outCap.toNat →
    ∃ t, exec .rleEncode s = .next t ∧ t.block.err = 0#4 ∧ t.block.done = true

/-- 40_rle R127: the command-level round trip. `s` is the state at the RLE_ENCODE, `t` the state after
it, and `u` any state in which the host has copied the output to IBUF at `p` and set the operands. -/
def Obligations.RleCommandRoundTrip : Prop :=
  ∀ (s t u : State) (p : Word), exec .rleEncode s = .next t → t.block.err = 0#4 →
    (∀ k, k < t.block.outLen.toNat →
      u.block.ibuf.lookup (p.toNat + k) = some (t.block.byte .obuf (s.block.outBase.toNat + k))) →
    u.block.inBase = p → u.block.inLen = t.block.outLen →
    u.block.InWindowOk → u.block.OutWindowOk → s.block.inLen.toNat ≤ u.block.outCap.toNat →
    ∃ v, exec .rleDecode u = .next v ∧ v.block.err = 0#4 ∧
      v.block.outLen = s.block.inLen ∧
      ∀ k, k < s.block.inLen.toNat → v.block.byte .obuf (u.block.outBase.toNat + k) =
        s.block.engineByte s.turn (s.block.inBase.toNat + k)

/-- 41_vlq (the round trip of the two functions), at the level of the commands: what VLQ_ENCODE wrote,
copied to IBUF with any bytes after it, VLQ_DECODE reads back whole and with OVERLONG 0. -/
def Obligations.VlqCommandRoundTrip : Prop :=
  ∀ (s t u : State) (p : Word), exec .vlqEncode s = .next t → t.block.err = 0#4 →
    (∀ k, k < t.block.outLen.toNat →
      u.block.ibuf.lookup (p.toNat + k) = some (t.block.byte .obuf (s.block.outBase.toNat + k))) →
    u.block.inBase = p → t.block.outLen.toNat ≤ u.block.inLen.toNat → u.block.InWindowOk →
    ∃ v, exec .vlqDecode u = .next v ∧ v.block.err = 0#4 ∧ v.block.value = s.block.value ∧
      v.block.consumed = t.block.outLen ∧ v.block.overlong = false

/-! ### The machine -/

/-- 60_exceptions (the completion step): when the engine's turn is next and FSM = BUSY, the step is the
meaning of the command in LATCHED_OP on the state with the turn taken. -/
def Obligations.EngineStepRunsTheLatchedCommand : Prop :=
  ∀ (s : State) (i : Instr), s.nextAgent = .engine → s.block.fsm = .busy →
    s.block.latchedOp = opOfInstr i → step s = exec i s.takeTurn

/-- 30_encoding (issue) with 60_exceptions (completion): a host write of a command's word to CMD of an
idle block issues it, and an engine turn right after it runs exactly that command. -/
def Obligations.IssuedWordRunsItsCommand : Prop :=
  ∀ (s : State) (i : Instr), s.block.fsm = .idle →
    s.HostWrites .four Reg.cmd.offset (encode i) →
    ∃ t, step s = .next t ∧
      t = { s.takeTurn with
        block := { s.block with latchedOp := opOfInstr i, fsm := .busy, done := false, err := 0#4,
                                overlong := false }
        host := { s.host with index := s.host.index + 1 } } ∧
      (t.nextAgent = .engine → step t = exec i t.takeTurn)

/-- Placing the word of a command before the engine stands for its issue (log 14, a DESIGN CHOICE): the
very next step runs exactly that command, in the issued state with one turn taken. -/
def Obligations.PlacedWordRunsItsCommand : Prop :=
  ∀ (s : State) (w : Word) (i : Instr), decode w = .ok i →
    step (s.withFetchWord 32 w.toNat) = exec i { s with
      block := { s.block with latchedOp := opOfInstr i, fsm := .busy, done := false, err := 0#4,
                              overlong := false }
      turn := s.turn + 1 }

/-- 60_exceptions (the completion step is enabled exactly when FSM = BUSY): an engine turn at FSM = IDLE
changes nothing but whose turn it is (log 3, a DESIGN CHOICE). With LATCHED_OP outside 1..4, which no
run reaches, the engine stops by name (log 15, a DESIGN CHOICE). -/
def Obligations.EngineIsEnabledOnlyWhenBusy : Prop :=
  ∀ s : State, s.nextAgent = .engine →
    (s.block.fsm = .idle → step s = .next s.takeTurn) ∧
    (s.block.fsm = .busy → (∀ i, s.block.latchedOp ≠ opOfInstr i) →
      step s = .fault .latchedOpReserved)

/-- 70_reset (reset, and reset while busy): from any state the reset event gives every register and
field the value of the table, makes every buffer byte unwritten, keeps the parameters and the host, and
the aborted command's completion never happens: an engine turn after it changes nothing. -/
def Obligations.ResetEventClearsTheBlock : Prop :=
  ∀ s : State, s.nextAgent = .reset →
    ∃ t, step s = .next t ∧ t.host = s.host ∧ t.block.cfg = s.block.cfg ∧
      t.block.fsm = .idle ∧ t.block.statusWord = 0#32 ∧ t.block.ctrlWord = 0#32 ∧
      t.block.inBase = 0#32 ∧ t.block.inLen = 0#32 ∧ t.block.outBase = 0#32 ∧
      t.block.outCap = 0#32 ∧ t.block.outLen = 0#32 ∧ t.block.consumed = 0#32 ∧
      t.block.value = 0#32 ∧ t.block.irq = false ∧
      (∀ i, t.block.ibuf.lookup i = none) ∧ (∀ i, t.block.obuf.lookup i = none) ∧
      (t.nextAgent = .engine → step t = .next t.takeTurn)

/-- 10_state (reset values): the state after reset, with the default parameters of 00_scope. -/
def Obligations.ResetStateHoldsTheTable : Prop :=
  State.reset.block.fsm = .idle ∧ State.reset.block.statusWord = 0#32 ∧
  State.reset.block.ctrlWord = 0#32 ∧ State.reset.block.inBase = 0#32 ∧
  State.reset.block.inLen = 0#32 ∧ State.reset.block.outBase = 0#32 ∧
  State.reset.block.outCap = 0#32 ∧ State.reset.block.outLen = 0#32 ∧
  State.reset.block.consumed = 0#32 ∧ State.reset.block.value = 0#32 ∧
  State.reset.block.irq = false ∧
  State.reset.block.cfg.ibufSize = 65536 ∧ State.reset.block.cfg.obufSize = 65536 ∧
  (∀ i, State.reset.block.ibuf.lookup i = none) ∧ (∀ i, State.reset.block.obuf.lookup i = none)

/-- The invariant holds in the state after reset. -/
def Obligations.ResetStateMeetsTheInvariant : Prop := State.reset.Inv

/-- Every step from a state that meets the invariant, by whichever agent, leads to one that meets it. -/
def Obligations.StepKeepsTheInvariant : Prop :=
  ∀ s t : State, s.Inv → step s = .next t → t.Inv

/-- From a state that meets the invariant the machine never stops: any number of steps answers a next
state, and the invariant holds in it. -/
def Obligations.MachineNeverStopsUnderTheInvariant : Prop :=
  ∀ (k : Nat) (s : State), s.Inv → ∃ t : State, Host.Core.run Sys2Proof.core k s = .next t ∧ t.Inv

/-- 60_exceptions R208: no step writes code 3 or a code of 7 to 15. -/
def Obligations.ReservedErrorCodesAreNeverWritten : Prop :=
  ∀ s t : State, step s = .next t → t.block.err ≠ s.block.err → ErrDefined t.block.err

/-- 10_state R25: what sets DONE and what clears it, and that nothing else changes it. -/
def Obligations.DoneIsSetByCompletionsOnly : Prop :=
  ∀ s t : State, step s = .next t →
    (s.nextAgent = .engine → s.block.fsm = .busy → t.block.done = true) ∧
    (∀ w, s.HostWrites .four Reg.cmd.offset w → s.block.fsm = .idle → (∀ i, w ≠ encode i) →
      t.block.done = true) ∧
    (∀ i, s.HostWrites .four Reg.cmd.offset (encode i) → s.block.fsm = .idle →
      t.block.done = false) ∧
    (∀ w, s.HostWrites .four Reg.status.offset w → w.getLsbD 1 = true → t.block.done = false) ∧
    (s.nextAgent = .reset → t.block.done = false) ∧
    (t.block.done ≠ s.block.done →
      (s.nextAgent = .engine ∧ s.block.fsm = .busy) ∨
      (∃ w, s.HostWrites .four Reg.cmd.offset w ∧ s.block.fsm = .idle) ∨
      (∃ w, s.HostWrites .four Reg.status.offset w ∧ w.getLsbD 1 = true) ∨
      s.nextAgent = .reset)

/-- 10_state R26: what sets WDROP and what clears it, and that nothing else changes it, an issue among
the rest. -/
def Obligations.WdropIsSetByDroppedWritesOnly : Prop :=
  ∀ s t : State, s.block.cfg.Legal → step s = .next t →
    (∀ n a v, s.HostWrites n a v → s.block.fsm = .busy → s.block.Drops n a →
      t.block.wdrop = true) ∧
    (∀ w, s.HostWrites .four Reg.status.offset w → w.getLsbD 2 = true → t.block.wdrop = false) ∧
    (s.nextAgent = .reset → t.block.wdrop = false) ∧
    (t.block.wdrop ≠ s.block.wdrop →
      (∃ n a v, s.HostWrites n a v ∧ s.block.fsm = .busy ∧ s.block.Drops n a) ∨
      (∃ w, s.HostWrites .four Reg.status.offset w ∧ w.getLsbD 2 = true) ∨
      s.nextAgent = .reset)

/-- 60_exceptions R212: IRQ is the level IE and DONE. With it, from the rules beside it: IE enables and
masks it, and it clears with DONE: by the acknowledge, by an issue, or by reset. -/
def Obligations.IrqFollowsEnableAndDone : Prop :=
  (∀ b : Block, b.irq = true ↔ b.ie = true ∧ b.done = true) ∧
  (∀ (b b' : Block) (w : Word), b.busWrite Reg.ctrl.offset .four w = some b' →
    b'.irq = (w.getLsbD 0 && b.done)) ∧
  (∀ (b b' : Block) (w : Word), b.busWrite Reg.status.offset .four w = some b' →
    w.getLsbD 1 = true → b'.irq = false) ∧
  (∀ (b b' : Block) (i : Instr), b.fsm = .idle →
    b.busWrite Reg.cmd.offset .four (encode i) = some b' → b'.irq = false) ∧
  (∀ s t : State, s.nextAgent = .reset → step s = .next t → t.block.irq = false)

/-- 20_memory (no later host write can change a running command's operands) and 70_reset (stale DONE):
any number of host turns while FSM = BUSY changes nothing of the block but DONE, WDROP and IE, and
never sets DONE. The turns stand in the model's own schedule (log 2). -/
def Obligations.HostTurnsWhileBusyKeepOperands : Prop :=
  ∀ (k : Nat) (s : State) (rest : List Agent), s.block.fsm = .busy →
    s.schedule = List.replicate k .host ++ rest →
    ∃ t : State, Host.Core.run Sys2Proof.core k s = .next t ∧ t.schedule = rest ∧
      t.block = { s.block with done := t.block.done, wdrop := t.block.wdrop, ie := t.block.ie } ∧
      (s.block.done = false → t.block.done = false)

/-- 70_reset (any finite number of host transactions, and weak fairness of the engine) with 20_memory
(operands at issue). When the engine's turn comes after `k` host turns, the command has completed, and
its result is the function of the block as it stood at issue, at the later turn, but for WDROP and IE.
However the turns fall, after finitely many the command has completed so, or a reset has aborted it. From
every state that meets the invariant a turn of the engine comes. The schedule and the turns that fairness
gives the engine are the model's form of the interleaving (logs 2 and 18, DESIGN CHOICES). -/
def Obligations.CompletionIsAFunctionOfTheIssuedState : Prop :=
  (∀ (k : Nat) (s : State) (rest : List Agent) (i : Instr), s.block.fsm = .busy →
    s.block.latchedOp = opOfInstr i → s.schedule = List.replicate k .host ++ .engine :: rest →
    ∃ t u : State, Host.Core.run Sys2Proof.core (k + 1) s = .next t ∧
      exec i { s with turn := s.turn + (k + 1) } = .next u ∧
      t.schedule = rest ∧ t.block.fsm = .idle ∧ t.block.done = true ∧
      t.block = { u.block with wdrop := t.block.wdrop, ie := t.block.ie }) ∧
  (∀ (s : State) (i : Instr), s.block.fsm = .busy → s.block.latchedOp = opOfInstr i →
    ∃ (k : Nat) (t u : State), Host.Core.run Sys2Proof.core k s = .next t ∧ t.block.fsm = .busy ∧
      step t = .next u ∧ u.block.fsm = .idle ∧
      ((t.nextAgent = .engine ∧ u.block.done = true ∧
          ∃ v : State, exec i { s with turn := s.turn + (k + 1) } = .next v ∧
            u.block = { v.block with wdrop := u.block.wdrop, ie := u.block.ie }) ∨
        (t.nextAgent = .reset ∧ u.block = Block.reset s.block.cfg (s.turn + (k + 1))))) ∧
  (∀ s : State, s.Inv → s.EngineTurnComes)

/-- 10_state (LATCHED_OP is meaningful only while FSM = BUSY), so that the model's value for it at reset
(log 4, a DESIGN CHOICE) shows in nothing: from an idle state a step does not depend on it. -/
def Obligations.LatchedOpIsHiddenWhileIdle : Prop :=
  ∀ (s t : State) (op : BitVec 4), s.block.fsm = .idle → step s = .next t →
    ∃ t', step { s with block := { s.block with latchedOp := op } } = .next t' ∧
      { t' with block := { t'.block with latchedOp := t.block.latchedOp } } = t ∧
      (t.block.fsm = .busy → t' = t)

/-- 30_encoding (host notation): the statements that make no bus transaction change the host only, each
as the table says. That the immediates have 32 bits and that HALT keeps the index is the model's choice
(logs 16 and 13, DESIGN CHOICES). -/
def Obligations.HostLocalStatements : Prop :=
  ∀ s : State,
    (∀ (t : Temp) (imm : Word), s.RunsStatement (.li t imm) →
      step s = .next (s.takeTurn.setTempNext t imm)) ∧
    (∀ target : Nat, s.RunsStatement (.b target) →
      step s = .next { s.takeTurn with host := { s.host with index := target } }) ∧
    (s.RunsStatement .halt →
      step s = .next { s.takeTurn with host := { s.host with status := .halted } }) ∧
    (∀ (t m : Temp) (imm v : Word) (target : Nat), s.host.temp m = some v →
      (s.RunsStatement (.andi t m imm) → step s = .next (s.takeTurn.setTempNext t (v &&& imm))) ∧
      (s.RunsStatement (.srli t m imm) → step s =
        .next (s.takeTurn.setTempNext t (BitVec.ofNat 32 (v.toNat / 2 ^ imm.toNat)))) ∧
      (s.RunsStatement (.bnz m target) → step s = .next { s.takeTurn with
        host := { s.host with index := if v ≠ 0#32 then target else s.host.index + 1 } }) ∧
      (s.RunsStatement (.bz m target) → step s = .next { s.takeTurn with
        host := { s.host with index := if v = 0#32 then target else s.host.index + 1 } }) ∧
      ∀ (k : Temp) (w : Word), s.host.temp k = some w →
        (s.RunsStatement (.add t m k) → step s =
          .next (s.takeTurn.setTempNext t (BitVec.ofNat 32 ((v.toNat + w.toNat) % 2 ^ 32)))) ∧
        (s.RunsStatement (.sub t m k) → step s =
          .next (s.takeTurn.setTempNext t (BitVec.ofInt 32 ((v.toNat - w.toNat : Int) % 2 ^ 32)))))

/-- 30_encoding (host notation): a statement with a transaction makes exactly that transaction, and goes
on to the next statement when it answers OK; a read keeps its value in the temporary. -/
def Obligations.HostBusStatements : Prop :=
  ∀ (s : State) (n : Size) (a : Offset),
    (∀ (v : Word) (b : Block), s.HostWrites n a v → s.block.busWrite a n v = some b →
      step s = .next { s.takeTurn with
        block := b, host := { s.host with index := s.host.index + 1 } }) ∧
    (∀ (t : Temp) (v : Word), s.HostReads n t a → s.block.busRead (s.turn + 1) a n = some v →
      ∃ u, step s = .next u ∧ u.block = s.block ∧ u.host.temp t = some v ∧
        (∀ t', t' ≠ t → u.host.temp t' = s.host.temp t') ∧
        u = { s.takeTurn with
          host := { s.host with index := s.host.index + 1, temps := u.host.temps } })

/-- 30_encoding (host notation): a read of a temporary nothing has written is a fault of the host
program, in every statement that reads one; the block is as it was. That the fault stands in the host's
status is the model's choice (log 12). -/
def Obligations.UnwrittenTemporaryFaultsTheHost : Prop :=
  ∀ (s : State) (st : Stmt) (m : Temp), s.RunsStatement st → s.host.temp m = none →
    ((∃ n a, st = .wrT n a m) ∨ (∃ t imm, st = .andi t m imm) ∨ (∃ t imm, st = .srli t m imm) ∨
      (∃ t k, st = .add t m k ∨ st = .add t k m ∨ st = .sub t m k ∨ st = .sub t k m) ∨
      (∃ target, st = .bnz m target ∨ st = .bz m target)) →
    step s = .next { s.takeTurn with host := { s.host with status := .faulted .unwrittenTemp } }
end

