-- ==== Sys2Proof/Laws/Memory.lean ====
section
/-! SUPPORT. The buffers: read after write, the canonical form, and the little-endian bytes. -/

namespace Sys2Proof.Machine

@[simp] theorem Memory.lookup_nil (i : Nat) : Memory.lookup [] i = none := rfl

@[simp] theorem Memory.writeBytes_nil (m : Memory) (i : Nat) : m.writeBytes i [] = m := rfl

/-- Reading back the byte just written. -/
@[simp] theorem Memory.lookup_write_same (m : Memory) (i : Nat) (x : Byte) :
    (m.write i x).lookup i = some x := by
  induction m with
  | nil => simp [Memory.write, Memory.lookup]
  | cons c rest ih =>
    obtain ⟨k, v⟩ := c
    simp only [Memory.write]
    split
    · simp [Memory.lookup]
    · split
      · simp [Memory.lookup]
      · have : k ≠ i := by omega
        simp [Memory.lookup, this, ih]

/-- A write leaves every other byte alone. -/
theorem Memory.lookup_write_other (m : Memory) {i j : Nat} (x : Byte) (h : j ≠ i) :
    (m.write i x).lookup j = m.lookup j := by
  induction m with
  | nil => simp [Memory.write, Memory.lookup, Ne.symm h]
  | cons c rest ih =>
    obtain ⟨k, v⟩ := c
    simp only [Memory.write]
    split
    · simp [Memory.lookup, Ne.symm h]
    · split
      · next hk => subst hk; simp [Memory.lookup, Ne.symm h]
      · simp [Memory.lookup, ih]

/-- A write of bytes leaves every byte outside them alone. -/
theorem Memory.lookup_writeBytes_outside (xs : List Byte) (m : Memory) (i : Nat) {j : Nat}
    (h : j < i ∨ i + xs.length ≤ j) : (m.writeBytes i xs).lookup j = m.lookup j := by
  induction xs generalizing m i with
  | nil => rfl
  | cons x xs ih =>
    simp only [List.length_cons] at h
    rw [Memory.writeBytes, ih _ _ (by omega), Memory.lookup_write_other _ _ (by omega)]

/-- The bytes written read back in order. -/
theorem Memory.lookup_writeBytes_inside (xs : List Byte) (m : Memory) (i k : Nat)
    (h : k < xs.length) : (m.writeBytes i xs).lookup (i + k) = some xs[k] := by
  induction xs generalizing m i k with
  | nil => simp at h
  | cons x xs ih =>
    cases k with
    | zero =>
      rw [Memory.writeBytes, Memory.lookup_writeBytes_outside _ _ _ (by omega)]
      simp
    | succ k =>
      have := ih (m.write i x) (i + 1) k (by simpa using h)
      rw [Memory.writeBytes, show i + (k + 1) = i + 1 + k by omega, this]
      simp

theorem Memory.sortedFrom_mono {size lo lo' : Nat} {m : Memory} (hl : lo' ≤ lo)
    (h : m.sortedFrom size lo = true) : m.sortedFrom size lo' = true := by
  cases m with
  | nil => rfl
  | cons c rest =>
    obtain ⟨k, v⟩ := c
    simp only [Memory.sortedFrom, Bool.and_eq_true, decide_eq_true_eq] at h ⊢
    exact ⟨⟨by omega, h.1.2⟩, h.2⟩

theorem Memory.sortedFrom_write {size lo i : Nat} {m : Memory} (x : Byte) (hl : lo ≤ i)
    (hs : i < size) (h : m.sortedFrom size lo = true) :
    (m.write i x).sortedFrom size lo = true := by
  induction m generalizing lo with
  | nil => simp [Memory.write, Memory.sortedFrom, hl, hs]
  | cons c rest ih =>
    obtain ⟨k, v⟩ := c
    simp only [Memory.sortedFrom, Bool.and_eq_true, decide_eq_true_eq] at h
    simp only [Memory.write]
    split
    · simp only [Memory.sortedFrom, Bool.and_eq_true, decide_eq_true_eq]
      exact ⟨⟨hl, hs⟩, ⟨by omega, h.1.2⟩, h.2⟩
    · split
      · next hk =>
        subst hk
        simp only [Memory.sortedFrom, Bool.and_eq_true, decide_eq_true_eq]
        exact ⟨⟨hl, hs⟩, h.2⟩
      · simp only [Memory.sortedFrom, Bool.and_eq_true, decide_eq_true_eq]
        exact ⟨h.1, ih (by omega) h.2⟩

/-- A write inside the buffer keeps the canonical form. -/
theorem Memory.wf_write {size i : Nat} {m : Memory} (x : Byte) (hs : i < size)
    (h : m.wf size = true) : (m.write i x).wf size = true :=
  Memory.sortedFrom_write x (Nat.zero_le i) hs h

/-- A write of bytes inside the buffer keeps the canonical form. -/
theorem Memory.wf_writeBytes {size : Nat} (xs : List Byte) {i : Nat} {m : Memory}
    (hs : i + xs.length ≤ size) (h : m.wf size = true) : (m.writeBytes i xs).wf size = true := by
  induction xs generalizing m i with
  | nil => exact h
  | cons x xs ih =>
    simp only [List.length_cons] at hs
    exact ih (by omega) (Memory.wf_write x (by omega) h)

@[simp] theorem Memory.wf_nil (size : Nat) : Memory.wf size [] = true := rfl

/-- Both buffers have the canonical form after reset. -/
theorem State.reset_buffers_wf :
    State.reset.block.ibuf.wf State.reset.block.cfg.ibufSize = true ∧
      State.reset.block.obuf.wf State.reset.block.cfg.obufSize = true := ⟨rfl, rfl⟩

/-- Nothing is listed below the bound of a sorted list. -/
theorem Memory.lookup_below {size lo i : Nat} {m : Memory} (h : m.sortedFrom size lo = true)
    (hi : i < lo) : m.lookup i = none := by
  induction m generalizing lo with
  | nil => rfl
  | cons c rest ih =>
    obtain ⟨k, v⟩ := c
    simp only [Memory.sortedFrom, Bool.and_eq_true, decide_eq_true_eq] at h
    have : k ≠ i := by omega
    simp only [Memory.lookup, this, if_false]
    exact ih h.2 (by omega)

/-- In canonical form nothing is listed at or above the buffer's size. -/
theorem Memory.lookup_outside {size i : Nat} {m : Memory} (h : m.wf size = true) (hi : size ≤ i) :
    m.lookup i = none := by
  have key : ∀ lo, m.sortedFrom size lo = true → m.lookup i = none := by
    clear h
    induction m with
    | nil => intros; rfl
    | cons c rest ih =>
      obtain ⟨k, v⟩ := c
      intro lo h
      simp only [Memory.sortedFrom, Bool.and_eq_true, decide_eq_true_eq] at h
      have : k ≠ i := by omega
      simp only [Memory.lookup, this, if_false]
      exact ih _ h.2
  exact key 0 h

@[simp] theorem leBytes_length (n : Nat) (v : Word) : (leBytes n v).length = n := by simp [leBytes]

@[simp] theorem leBytes_getElem (n : Nat) (v : Word) (k : Nat) (h : k < (leBytes n v).length) :
    (leBytes n v)[k] = v.extractLsb' (8 * k) 8 := by simp [leBytes]

/-- The little-endian sum of `n` bytes fits in `8n` bits. -/
theorem leNat_lt (xs : List Byte) : leNat xs < 2 ^ (8 * xs.length) := by
  induction xs with
  | nil => simp [leNat]
  | cons x xs ih =>
    have hx := x.isLt
    have : 2 ^ (8 * (xs.length + 1)) = 2 ^ 8 * 2 ^ (8 * xs.length) := by
      rw [← Nat.pow_add]; congr 1; omega
    simp only [leNat, List.length_cons, this]
    omega

/-- Byte `k` of the little-endian sum is byte `k` (20_memory R67). -/
theorem leNat_byte (xs : List Byte) (k : Nat) (h : k < xs.length) :
    leNat xs / 2 ^ (8 * k) % 2 ^ 8 = xs[k].toNat := by
  induction xs generalizing k with
  | nil => simp at h
  | cons x xs ih =>
    have hx := x.isLt
    cases k with
    | zero => simp only [leNat, Nat.mul_zero, Nat.pow_zero, Nat.div_one, List.getElem_cons_zero]; omega
    | succ k =>
      have hp : 2 ^ (8 * (k + 1)) = 2 ^ 8 * 2 ^ (8 * k) := by
        rw [← Nat.pow_add]; congr 1; omega
      have hd : (x.toNat + 2 ^ 8 * leNat xs) / 2 ^ 8 = leNat xs := by omega
      simp only [leNat, hp, ← Nat.div_div_eq_div_mul, hd, List.getElem_cons_succ]
      exact ih k (by simpa using h)

/-! ### Storing into the block's buffers -/

/-- Reading a byte of the buffer that was stored into, inside the stored bytes. -/
theorem Block.byte_storeBytes_inside (b : Block) (which : Buffer) (i k : Nat) (xs : List Byte)
    (h : k < xs.length) : (b.storeBytes which i xs).byte which (i + k) = xs[k] := by
  cases which <;>
    simp [Block.byte, Block.mem, Block.storeBytes, Memory.lookup_writeBytes_inside xs _ i k h]

/-- Every byte outside the stored ones reads as before. -/
theorem Block.byte_storeBytes_outside (b : Block) (which which' : Buffer) (i j : Nat)
    (xs : List Byte) (h : which' ≠ which ∨ j < i ∨ i + xs.length ≤ j) :
    (b.storeBytes which i xs).byte which' j = b.byte which' j := by
  cases which <;> cases which' <;> simp_all [Block.byte, Block.mem, Block.storeBytes] <;>
    rw [Memory.lookup_writeBytes_outside _ _ _ h]

end Sys2Proof.Machine
end

