-- ==== Sys2Proof/Laws/State.lean ====
section
/-! SUPPORT. One lemma per field per update, so that no later proof unfolds a record update. -/

namespace Sys2Proof.Machine

/-! ### finish -/

@[simp] theorem Block.finish_cfg (b : Block) : (b.finish).cfg = b.cfg := rfl
@[simp] theorem Block.finish_fsm (b : Block) : (b.finish).fsm = .idle := rfl
@[simp] theorem Block.finish_latchedOp (b : Block) : (b.finish).latchedOp = b.latchedOp := rfl
@[simp] theorem Block.finish_done (b : Block) : (b.finish).done = true := rfl
@[simp] theorem Block.finish_wdrop (b : Block) : (b.finish).wdrop = b.wdrop := rfl
@[simp] theorem Block.finish_overlong (b : Block) : (b.finish).overlong = b.overlong := rfl
@[simp] theorem Block.finish_err (b : Block) : (b.finish).err = b.err := rfl
@[simp] theorem Block.finish_ie (b : Block) : (b.finish).ie = b.ie := rfl
@[simp] theorem Block.finish_inBase (b : Block) : (b.finish).inBase = b.inBase := rfl
@[simp] theorem Block.finish_inLen (b : Block) : (b.finish).inLen = b.inLen := rfl
@[simp] theorem Block.finish_outBase (b : Block) : (b.finish).outBase = b.outBase := rfl
@[simp] theorem Block.finish_outCap (b : Block) : (b.finish).outCap = b.outCap := rfl
@[simp] theorem Block.finish_outLen (b : Block) : (b.finish).outLen = b.outLen := rfl
@[simp] theorem Block.finish_consumed (b : Block) : (b.finish).consumed = b.consumed := rfl
@[simp] theorem Block.finish_value (b : Block) : (b.finish).value = b.value := rfl
@[simp] theorem Block.finish_ibuf (b : Block) : (b.finish).ibuf = b.ibuf := rfl
@[simp] theorem Block.finish_obuf (b : Block) : (b.finish).obuf = b.obuf := rfl
@[simp] theorem Block.finish_epoch (b : Block) : (b.finish).epoch = b.epoch := rfl

/-! ### raise -/

@[simp] theorem Block.raise_cfg (e : ErrCode) (b : Block) : (b.raise e).cfg = b.cfg := rfl
@[simp] theorem Block.raise_fsm (e : ErrCode) (b : Block) : (b.raise e).fsm = b.fsm := rfl
@[simp] theorem Block.raise_latchedOp (e : ErrCode) (b : Block) : (b.raise e).latchedOp = b.latchedOp := rfl
@[simp] theorem Block.raise_done (e : ErrCode) (b : Block) : (b.raise e).done = b.done := rfl
@[simp] theorem Block.raise_wdrop (e : ErrCode) (b : Block) : (b.raise e).wdrop = b.wdrop := rfl
@[simp] theorem Block.raise_overlong (e : ErrCode) (b : Block) : (b.raise e).overlong = false := rfl
@[simp] theorem Block.raise_err (e : ErrCode) (b : Block) : (b.raise e).err = e.code := rfl
@[simp] theorem Block.raise_ie (e : ErrCode) (b : Block) : (b.raise e).ie = b.ie := rfl
@[simp] theorem Block.raise_inBase (e : ErrCode) (b : Block) : (b.raise e).inBase = b.inBase := rfl
@[simp] theorem Block.raise_inLen (e : ErrCode) (b : Block) : (b.raise e).inLen = b.inLen := rfl
@[simp] theorem Block.raise_outBase (e : ErrCode) (b : Block) : (b.raise e).outBase = b.outBase := rfl
@[simp] theorem Block.raise_outCap (e : ErrCode) (b : Block) : (b.raise e).outCap = b.outCap := rfl
@[simp] theorem Block.raise_outLen (e : ErrCode) (b : Block) : (b.raise e).outLen = 0#32 := rfl
@[simp] theorem Block.raise_consumed (e : ErrCode) (b : Block) : (b.raise e).consumed = 0#32 := rfl
@[simp] theorem Block.raise_value (e : ErrCode) (b : Block) : (b.raise e).value = b.value := rfl
@[simp] theorem Block.raise_ibuf (e : ErrCode) (b : Block) : (b.raise e).ibuf = b.ibuf := rfl
@[simp] theorem Block.raise_obuf (e : ErrCode) (b : Block) : (b.raise e).obuf = b.obuf := rfl
@[simp] theorem Block.raise_epoch (e : ErrCode) (b : Block) : (b.raise e).epoch = b.epoch := rfl

/-! ### succeed -/

@[simp] theorem Block.succeed_cfg (n c : Word) (o : Bool) (b : Block) : (b.succeed n c o).cfg = b.cfg := rfl
@[simp] theorem Block.succeed_fsm (n c : Word) (o : Bool) (b : Block) : (b.succeed n c o).fsm = b.fsm := rfl
@[simp] theorem Block.succeed_latchedOp (n c : Word) (o : Bool) (b : Block) : (b.succeed n c o).latchedOp = b.latchedOp := rfl
@[simp] theorem Block.succeed_done (n c : Word) (o : Bool) (b : Block) : (b.succeed n c o).done = b.done := rfl
@[simp] theorem Block.succeed_wdrop (n c : Word) (o : Bool) (b : Block) : (b.succeed n c o).wdrop = b.wdrop := rfl
@[simp] theorem Block.succeed_overlong (n c : Word) (o : Bool) (b : Block) : (b.succeed n c o).overlong = o := rfl
@[simp] theorem Block.succeed_err (n c : Word) (o : Bool) (b : Block) : (b.succeed n c o).err = 0#4 := rfl
@[simp] theorem Block.succeed_ie (n c : Word) (o : Bool) (b : Block) : (b.succeed n c o).ie = b.ie := rfl
@[simp] theorem Block.succeed_inBase (n c : Word) (o : Bool) (b : Block) : (b.succeed n c o).inBase = b.inBase := rfl
@[simp] theorem Block.succeed_inLen (n c : Word) (o : Bool) (b : Block) : (b.succeed n c o).inLen = b.inLen := rfl
@[simp] theorem Block.succeed_outBase (n c : Word) (o : Bool) (b : Block) : (b.succeed n c o).outBase = b.outBase := rfl
@[simp] theorem Block.succeed_outCap (n c : Word) (o : Bool) (b : Block) : (b.succeed n c o).outCap = b.outCap := rfl
@[simp] theorem Block.succeed_outLen (n c : Word) (o : Bool) (b : Block) : (b.succeed n c o).outLen = n := rfl
@[simp] theorem Block.succeed_consumed (n c : Word) (o : Bool) (b : Block) : (b.succeed n c o).consumed = c := rfl
@[simp] theorem Block.succeed_value (n c : Word) (o : Bool) (b : Block) : (b.succeed n c o).value = b.value := rfl
@[simp] theorem Block.succeed_ibuf (n c : Word) (o : Bool) (b : Block) : (b.succeed n c o).ibuf = b.ibuf := rfl
@[simp] theorem Block.succeed_obuf (n c : Word) (o : Bool) (b : Block) : (b.succeed n c o).obuf = b.obuf := rfl
@[simp] theorem Block.succeed_epoch (n c : Word) (o : Bool) (b : Block) : (b.succeed n c o).epoch = b.epoch := rfl

/-! ### drop -/

@[simp] theorem Block.drop_cfg (b : Block) : (b.drop).cfg = b.cfg := rfl
@[simp] theorem Block.drop_fsm (b : Block) : (b.drop).fsm = b.fsm := rfl
@[simp] theorem Block.drop_latchedOp (b : Block) : (b.drop).latchedOp = b.latchedOp := rfl
@[simp] theorem Block.drop_done (b : Block) : (b.drop).done = b.done := rfl
@[simp] theorem Block.drop_wdrop (b : Block) : (b.drop).wdrop = true := rfl
@[simp] theorem Block.drop_overlong (b : Block) : (b.drop).overlong = b.overlong := rfl
@[simp] theorem Block.drop_err (b : Block) : (b.drop).err = b.err := rfl
@[simp] theorem Block.drop_ie (b : Block) : (b.drop).ie = b.ie := rfl
@[simp] theorem Block.drop_inBase (b : Block) : (b.drop).inBase = b.inBase := rfl
@[simp] theorem Block.drop_inLen (b : Block) : (b.drop).inLen = b.inLen := rfl
@[simp] theorem Block.drop_outBase (b : Block) : (b.drop).outBase = b.outBase := rfl
@[simp] theorem Block.drop_outCap (b : Block) : (b.drop).outCap = b.outCap := rfl
@[simp] theorem Block.drop_outLen (b : Block) : (b.drop).outLen = b.outLen := rfl
@[simp] theorem Block.drop_consumed (b : Block) : (b.drop).consumed = b.consumed := rfl
@[simp] theorem Block.drop_value (b : Block) : (b.drop).value = b.value := rfl
@[simp] theorem Block.drop_ibuf (b : Block) : (b.drop).ibuf = b.ibuf := rfl
@[simp] theorem Block.drop_obuf (b : Block) : (b.drop).obuf = b.obuf := rfl
@[simp] theorem Block.drop_epoch (b : Block) : (b.drop).epoch = b.epoch := rfl

/-! ### issue -/

@[simp] theorem Block.issue_cfg (op : BitVec 4) (b : Block) : (b.issue op).cfg = b.cfg := rfl
@[simp] theorem Block.issue_fsm (op : BitVec 4) (b : Block) : (b.issue op).fsm = .busy := rfl
@[simp] theorem Block.issue_latchedOp (op : BitVec 4) (b : Block) : (b.issue op).latchedOp = op := rfl
@[simp] theorem Block.issue_done (op : BitVec 4) (b : Block) : (b.issue op).done = false := rfl
@[simp] theorem Block.issue_wdrop (op : BitVec 4) (b : Block) : (b.issue op).wdrop = b.wdrop := rfl
@[simp] theorem Block.issue_overlong (op : BitVec 4) (b : Block) : (b.issue op).overlong = false := rfl
@[simp] theorem Block.issue_err (op : BitVec 4) (b : Block) : (b.issue op).err = 0#4 := rfl
@[simp] theorem Block.issue_ie (op : BitVec 4) (b : Block) : (b.issue op).ie = b.ie := rfl
@[simp] theorem Block.issue_inBase (op : BitVec 4) (b : Block) : (b.issue op).inBase = b.inBase := rfl
@[simp] theorem Block.issue_inLen (op : BitVec 4) (b : Block) : (b.issue op).inLen = b.inLen := rfl
@[simp] theorem Block.issue_outBase (op : BitVec 4) (b : Block) : (b.issue op).outBase = b.outBase := rfl
@[simp] theorem Block.issue_outCap (op : BitVec 4) (b : Block) : (b.issue op).outCap = b.outCap := rfl
@[simp] theorem Block.issue_outLen (op : BitVec 4) (b : Block) : (b.issue op).outLen = b.outLen := rfl
@[simp] theorem Block.issue_consumed (op : BitVec 4) (b : Block) : (b.issue op).consumed = b.consumed := rfl
@[simp] theorem Block.issue_value (op : BitVec 4) (b : Block) : (b.issue op).value = b.value := rfl
@[simp] theorem Block.issue_ibuf (op : BitVec 4) (b : Block) : (b.issue op).ibuf = b.ibuf := rfl
@[simp] theorem Block.issue_obuf (op : BitVec 4) (b : Block) : (b.issue op).obuf = b.obuf := rfl
@[simp] theorem Block.issue_epoch (op : BitVec 4) (b : Block) : (b.issue op).epoch = b.epoch := rfl

/-! ### completeIllegal -/

@[simp] theorem Block.completeIllegal_cfg (b : Block) : (b.completeIllegal).cfg = b.cfg := rfl
@[simp] theorem Block.completeIllegal_fsm (b : Block) : (b.completeIllegal).fsm = b.fsm := rfl
@[simp] theorem Block.completeIllegal_latchedOp (b : Block) : (b.completeIllegal).latchedOp = b.latchedOp := rfl
@[simp] theorem Block.completeIllegal_done (b : Block) : (b.completeIllegal).done = true := rfl
@[simp] theorem Block.completeIllegal_wdrop (b : Block) : (b.completeIllegal).wdrop = b.wdrop := rfl
@[simp] theorem Block.completeIllegal_overlong (b : Block) : (b.completeIllegal).overlong = false := rfl
@[simp] theorem Block.completeIllegal_err (b : Block) : (b.completeIllegal).err = 6#4 := rfl
@[simp] theorem Block.completeIllegal_ie (b : Block) : (b.completeIllegal).ie = b.ie := rfl
@[simp] theorem Block.completeIllegal_inBase (b : Block) : (b.completeIllegal).inBase = b.inBase := rfl
@[simp] theorem Block.completeIllegal_inLen (b : Block) : (b.completeIllegal).inLen = b.inLen := rfl
@[simp] theorem Block.completeIllegal_outBase (b : Block) : (b.completeIllegal).outBase = b.outBase := rfl
@[simp] theorem Block.completeIllegal_outCap (b : Block) : (b.completeIllegal).outCap = b.outCap := rfl
@[simp] theorem Block.completeIllegal_outLen (b : Block) : (b.completeIllegal).outLen = 0#32 := rfl
@[simp] theorem Block.completeIllegal_consumed (b : Block) : (b.completeIllegal).consumed = 0#32 := rfl
@[simp] theorem Block.completeIllegal_value (b : Block) : (b.completeIllegal).value = b.value := rfl
@[simp] theorem Block.completeIllegal_ibuf (b : Block) : (b.completeIllegal).ibuf = b.ibuf := rfl
@[simp] theorem Block.completeIllegal_obuf (b : Block) : (b.completeIllegal).obuf = b.obuf := rfl
@[simp] theorem Block.completeIllegal_epoch (b : Block) : (b.completeIllegal).epoch = b.epoch := rfl

/-! ### writeStatus -/

@[simp] theorem Block.writeStatus_cfg (w : Word) (b : Block) : (b.writeStatus w).cfg = b.cfg := rfl
@[simp] theorem Block.writeStatus_fsm (w : Word) (b : Block) : (b.writeStatus w).fsm = b.fsm := rfl
@[simp] theorem Block.writeStatus_latchedOp (w : Word) (b : Block) : (b.writeStatus w).latchedOp = b.latchedOp := rfl
@[simp] theorem Block.writeStatus_done (w : Word) (b : Block) : (b.writeStatus w).done = (b.done && !w.getLsbD 1) := rfl
@[simp] theorem Block.writeStatus_wdrop (w : Word) (b : Block) : (b.writeStatus w).wdrop = (b.wdrop && !w.getLsbD 2) := rfl
@[simp] theorem Block.writeStatus_overlong (w : Word) (b : Block) : (b.writeStatus w).overlong = b.overlong := rfl
@[simp] theorem Block.writeStatus_err (w : Word) (b : Block) : (b.writeStatus w).err = b.err := rfl
@[simp] theorem Block.writeStatus_ie (w : Word) (b : Block) : (b.writeStatus w).ie = b.ie := rfl
@[simp] theorem Block.writeStatus_inBase (w : Word) (b : Block) : (b.writeStatus w).inBase = b.inBase := rfl
@[simp] theorem Block.writeStatus_inLen (w : Word) (b : Block) : (b.writeStatus w).inLen = b.inLen := rfl
@[simp] theorem Block.writeStatus_outBase (w : Word) (b : Block) : (b.writeStatus w).outBase = b.outBase := rfl
@[simp] theorem Block.writeStatus_outCap (w : Word) (b : Block) : (b.writeStatus w).outCap = b.outCap := rfl
@[simp] theorem Block.writeStatus_outLen (w : Word) (b : Block) : (b.writeStatus w).outLen = b.outLen := rfl
@[simp] theorem Block.writeStatus_consumed (w : Word) (b : Block) : (b.writeStatus w).consumed = b.consumed := rfl
@[simp] theorem Block.writeStatus_value (w : Word) (b : Block) : (b.writeStatus w).value = b.value := rfl
@[simp] theorem Block.writeStatus_ibuf (w : Word) (b : Block) : (b.writeStatus w).ibuf = b.ibuf := rfl
@[simp] theorem Block.writeStatus_obuf (w : Word) (b : Block) : (b.writeStatus w).obuf = b.obuf := rfl
@[simp] theorem Block.writeStatus_epoch (w : Word) (b : Block) : (b.writeStatus w).epoch = b.epoch := rfl

/-! ### writeCtrl -/

@[simp] theorem Block.writeCtrl_cfg (w : Word) (b : Block) : (b.writeCtrl w).cfg = b.cfg := rfl
@[simp] theorem Block.writeCtrl_fsm (w : Word) (b : Block) : (b.writeCtrl w).fsm = b.fsm := rfl
@[simp] theorem Block.writeCtrl_latchedOp (w : Word) (b : Block) : (b.writeCtrl w).latchedOp = b.latchedOp := rfl
@[simp] theorem Block.writeCtrl_done (w : Word) (b : Block) : (b.writeCtrl w).done = b.done := rfl
@[simp] theorem Block.writeCtrl_wdrop (w : Word) (b : Block) : (b.writeCtrl w).wdrop = b.wdrop := rfl
@[simp] theorem Block.writeCtrl_overlong (w : Word) (b : Block) : (b.writeCtrl w).overlong = b.overlong := rfl
@[simp] theorem Block.writeCtrl_err (w : Word) (b : Block) : (b.writeCtrl w).err = b.err := rfl
@[simp] theorem Block.writeCtrl_ie (w : Word) (b : Block) : (b.writeCtrl w).ie = w.getLsbD 0 := rfl
@[simp] theorem Block.writeCtrl_inBase (w : Word) (b : Block) : (b.writeCtrl w).inBase = b.inBase := rfl
@[simp] theorem Block.writeCtrl_inLen (w : Word) (b : Block) : (b.writeCtrl w).inLen = b.inLen := rfl
@[simp] theorem Block.writeCtrl_outBase (w : Word) (b : Block) : (b.writeCtrl w).outBase = b.outBase := rfl
@[simp] theorem Block.writeCtrl_outCap (w : Word) (b : Block) : (b.writeCtrl w).outCap = b.outCap := rfl
@[simp] theorem Block.writeCtrl_outLen (w : Word) (b : Block) : (b.writeCtrl w).outLen = b.outLen := rfl
@[simp] theorem Block.writeCtrl_consumed (w : Word) (b : Block) : (b.writeCtrl w).consumed = b.consumed := rfl
@[simp] theorem Block.writeCtrl_value (w : Word) (b : Block) : (b.writeCtrl w).value = b.value := rfl
@[simp] theorem Block.writeCtrl_ibuf (w : Word) (b : Block) : (b.writeCtrl w).ibuf = b.ibuf := rfl
@[simp] theorem Block.writeCtrl_obuf (w : Word) (b : Block) : (b.writeCtrl w).obuf = b.obuf := rfl
@[simp] theorem Block.writeCtrl_epoch (w : Word) (b : Block) : (b.writeCtrl w).epoch = b.epoch := rfl

/-! ### storeIbuf -/

@[simp] theorem Block.storeIbuf_cfg (i : Nat) (xs : List Byte) (b : Block) : (b.storeBytes .ibuf i xs).cfg = b.cfg := rfl
@[simp] theorem Block.storeIbuf_fsm (i : Nat) (xs : List Byte) (b : Block) : (b.storeBytes .ibuf i xs).fsm = b.fsm := rfl
@[simp] theorem Block.storeIbuf_latchedOp (i : Nat) (xs : List Byte) (b : Block) : (b.storeBytes .ibuf i xs).latchedOp = b.latchedOp := rfl
@[simp] theorem Block.storeIbuf_done (i : Nat) (xs : List Byte) (b : Block) : (b.storeBytes .ibuf i xs).done = b.done := rfl
@[simp] theorem Block.storeIbuf_wdrop (i : Nat) (xs : List Byte) (b : Block) : (b.storeBytes .ibuf i xs).wdrop = b.wdrop := rfl
@[simp] theorem Block.storeIbuf_overlong (i : Nat) (xs : List Byte) (b : Block) : (b.storeBytes .ibuf i xs).overlong = b.overlong := rfl
@[simp] theorem Block.storeIbuf_err (i : Nat) (xs : List Byte) (b : Block) : (b.storeBytes .ibuf i xs).err = b.err := rfl
@[simp] theorem Block.storeIbuf_ie (i : Nat) (xs : List Byte) (b : Block) : (b.storeBytes .ibuf i xs).ie = b.ie := rfl
@[simp] theorem Block.storeIbuf_inBase (i : Nat) (xs : List Byte) (b : Block) : (b.storeBytes .ibuf i xs).inBase = b.inBase := rfl
@[simp] theorem Block.storeIbuf_inLen (i : Nat) (xs : List Byte) (b : Block) : (b.storeBytes .ibuf i xs).inLen = b.inLen := rfl
@[simp] theorem Block.storeIbuf_outBase (i : Nat) (xs : List Byte) (b : Block) : (b.storeBytes .ibuf i xs).outBase = b.outBase := rfl
@[simp] theorem Block.storeIbuf_outCap (i : Nat) (xs : List Byte) (b : Block) : (b.storeBytes .ibuf i xs).outCap = b.outCap := rfl
@[simp] theorem Block.storeIbuf_outLen (i : Nat) (xs : List Byte) (b : Block) : (b.storeBytes .ibuf i xs).outLen = b.outLen := rfl
@[simp] theorem Block.storeIbuf_consumed (i : Nat) (xs : List Byte) (b : Block) : (b.storeBytes .ibuf i xs).consumed = b.consumed := rfl
@[simp] theorem Block.storeIbuf_value (i : Nat) (xs : List Byte) (b : Block) : (b.storeBytes .ibuf i xs).value = b.value := rfl
@[simp] theorem Block.storeIbuf_ibuf (i : Nat) (xs : List Byte) (b : Block) : (b.storeBytes .ibuf i xs).ibuf = b.ibuf.writeBytes i xs := rfl
@[simp] theorem Block.storeIbuf_obuf (i : Nat) (xs : List Byte) (b : Block) : (b.storeBytes .ibuf i xs).obuf = b.obuf := rfl
@[simp] theorem Block.storeIbuf_epoch (i : Nat) (xs : List Byte) (b : Block) : (b.storeBytes .ibuf i xs).epoch = b.epoch := rfl

/-! ### storeObuf -/

@[simp] theorem Block.storeObuf_cfg (i : Nat) (xs : List Byte) (b : Block) : (b.storeBytes .obuf i xs).cfg = b.cfg := rfl
@[simp] theorem Block.storeObuf_fsm (i : Nat) (xs : List Byte) (b : Block) : (b.storeBytes .obuf i xs).fsm = b.fsm := rfl
@[simp] theorem Block.storeObuf_latchedOp (i : Nat) (xs : List Byte) (b : Block) : (b.storeBytes .obuf i xs).latchedOp = b.latchedOp := rfl
@[simp] theorem Block.storeObuf_done (i : Nat) (xs : List Byte) (b : Block) : (b.storeBytes .obuf i xs).done = b.done := rfl
@[simp] theorem Block.storeObuf_wdrop (i : Nat) (xs : List Byte) (b : Block) : (b.storeBytes .obuf i xs).wdrop = b.wdrop := rfl
@[simp] theorem Block.storeObuf_overlong (i : Nat) (xs : List Byte) (b : Block) : (b.storeBytes .obuf i xs).overlong = b.overlong := rfl
@[simp] theorem Block.storeObuf_err (i : Nat) (xs : List Byte) (b : Block) : (b.storeBytes .obuf i xs).err = b.err := rfl
@[simp] theorem Block.storeObuf_ie (i : Nat) (xs : List Byte) (b : Block) : (b.storeBytes .obuf i xs).ie = b.ie := rfl
@[simp] theorem Block.storeObuf_inBase (i : Nat) (xs : List Byte) (b : Block) : (b.storeBytes .obuf i xs).inBase = b.inBase := rfl
@[simp] theorem Block.storeObuf_inLen (i : Nat) (xs : List Byte) (b : Block) : (b.storeBytes .obuf i xs).inLen = b.inLen := rfl
@[simp] theorem Block.storeObuf_outBase (i : Nat) (xs : List Byte) (b : Block) : (b.storeBytes .obuf i xs).outBase = b.outBase := rfl
@[simp] theorem Block.storeObuf_outCap (i : Nat) (xs : List Byte) (b : Block) : (b.storeBytes .obuf i xs).outCap = b.outCap := rfl
@[simp] theorem Block.storeObuf_outLen (i : Nat) (xs : List Byte) (b : Block) : (b.storeBytes .obuf i xs).outLen = b.outLen := rfl
@[simp] theorem Block.storeObuf_consumed (i : Nat) (xs : List Byte) (b : Block) : (b.storeBytes .obuf i xs).consumed = b.consumed := rfl
@[simp] theorem Block.storeObuf_value (i : Nat) (xs : List Byte) (b : Block) : (b.storeBytes .obuf i xs).value = b.value := rfl
@[simp] theorem Block.storeObuf_ibuf (i : Nat) (xs : List Byte) (b : Block) : (b.storeBytes .obuf i xs).ibuf = b.ibuf := rfl
@[simp] theorem Block.storeObuf_obuf (i : Nat) (xs : List Byte) (b : Block) : (b.storeBytes .obuf i xs).obuf = b.obuf.writeBytes i xs := rfl
@[simp] theorem Block.storeObuf_epoch (i : Nat) (xs : List Byte) (b : Block) : (b.storeBytes .obuf i xs).epoch = b.epoch := rfl

/-! ### clobberOutput -/

@[simp] theorem Block.clobberOutput_cfg (turn : Nat) (b : Block) : (b.clobberOutput turn).cfg = b.cfg := rfl
@[simp] theorem Block.clobberOutput_fsm (turn : Nat) (b : Block) : (b.clobberOutput turn).fsm = b.fsm := rfl
@[simp] theorem Block.clobberOutput_latchedOp (turn : Nat) (b : Block) : (b.clobberOutput turn).latchedOp = b.latchedOp := rfl
@[simp] theorem Block.clobberOutput_done (turn : Nat) (b : Block) : (b.clobberOutput turn).done = b.done := rfl
@[simp] theorem Block.clobberOutput_wdrop (turn : Nat) (b : Block) : (b.clobberOutput turn).wdrop = b.wdrop := rfl
@[simp] theorem Block.clobberOutput_overlong (turn : Nat) (b : Block) : (b.clobberOutput turn).overlong = b.overlong := rfl
@[simp] theorem Block.clobberOutput_err (turn : Nat) (b : Block) : (b.clobberOutput turn).err = b.err := rfl
@[simp] theorem Block.clobberOutput_ie (turn : Nat) (b : Block) : (b.clobberOutput turn).ie = b.ie := rfl
@[simp] theorem Block.clobberOutput_inBase (turn : Nat) (b : Block) : (b.clobberOutput turn).inBase = b.inBase := rfl
@[simp] theorem Block.clobberOutput_inLen (turn : Nat) (b : Block) : (b.clobberOutput turn).inLen = b.inLen := rfl
@[simp] theorem Block.clobberOutput_outBase (turn : Nat) (b : Block) : (b.clobberOutput turn).outBase = b.outBase := rfl
@[simp] theorem Block.clobberOutput_outCap (turn : Nat) (b : Block) : (b.clobberOutput turn).outCap = b.outCap := rfl
@[simp] theorem Block.clobberOutput_outLen (turn : Nat) (b : Block) : (b.clobberOutput turn).outLen = b.outLen := rfl
@[simp] theorem Block.clobberOutput_consumed (turn : Nat) (b : Block) : (b.clobberOutput turn).consumed = b.consumed := rfl
@[simp] theorem Block.clobberOutput_value (turn : Nat) (b : Block) : (b.clobberOutput turn).value = b.value := rfl
@[simp] theorem Block.clobberOutput_ibuf (turn : Nat) (b : Block) : (b.clobberOutput turn).ibuf = b.ibuf := rfl
@[simp] theorem Block.clobberOutput_obuf (turn : Nat) (b : Block) : (b.clobberOutput turn).obuf = b.obuf.writeBytes b.outBase.toNat
      ((List.range b.outCap.toNat).map fun k => Config.overflowByte turn (b.outBase.toNat + k)) := rfl
@[simp] theorem Block.clobberOutput_epoch (turn : Nat) (b : Block) : (b.clobberOutput turn).epoch = b.epoch := rfl

/-! ### The machine -/

@[simp] theorem State.complete_block (body : Block → Block) (s : State) : (s.complete body).block = (body s.block).finish := rfl
@[simp] theorem State.complete_host (body : Block → Block) (s : State) : (s.complete body).host = s.host := rfl
@[simp] theorem State.complete_schedule (body : Block → Block) (s : State) : (s.complete body).schedule = s.schedule := rfl
@[simp] theorem State.complete_turn (body : Block → Block) (s : State) : (s.complete body).turn = s.turn := rfl

@[simp] theorem State.takeTurn_block (s : State) : (s.takeTurn).block = s.block := rfl
@[simp] theorem State.takeTurn_host (s : State) : (s.takeTurn).host = s.host := rfl
@[simp] theorem State.takeTurn_schedule (s : State) : (s.takeTurn).schedule = s.schedule.tail := rfl
@[simp] theorem State.takeTurn_turn (s : State) : (s.takeTurn).turn = s.turn + 1 := rfl

@[simp] theorem State.endHost_block (s : State) (st : HostStatus) : (s.endHost st).block = s.block := rfl
@[simp] theorem State.endHost_host (s : State) (st : HostStatus) : (s.endHost st).host = { s.host with status := st } := rfl
@[simp] theorem State.endHost_schedule (s : State) (st : HostStatus) : (s.endHost st).schedule = s.schedule := rfl
@[simp] theorem State.endHost_turn (s : State) (st : HostStatus) : (s.endHost st).turn = s.turn := rfl

@[simp] theorem State.setTempNext_block (s : State) (t : Temp) (v : Word) : (s.setTempNext t v).block = s.block := rfl
@[simp] theorem State.setTempNext_host (s : State) (t : Temp) (v : Word) : (s.setTempNext t v).host = (s.host.setTemp t v).next := rfl
@[simp] theorem State.setTempNext_schedule (s : State) (t : Temp) (v : Word) : (s.setTempNext t v).schedule = s.schedule := rfl
@[simp] theorem State.setTempNext_turn (s : State) (t : Temp) (v : Word) : (s.setTempNext t v).turn = s.turn := rfl

@[simp] theorem State.branch_block (s : State) (c : Bool) (n : Nat) : (s.branch c n).block = s.block := rfl
@[simp] theorem State.branch_host (s : State) (c : Bool) (n : Nat) : (s.branch c n).host = if c then s.host.goto n else s.host.next := rfl
@[simp] theorem State.branch_schedule (s : State) (c : Bool) (n : Nat) : (s.branch c n).schedule = s.schedule := rfl
@[simp] theorem State.branch_turn (s : State) (c : Bool) (n : Nat) : (s.branch c n).turn = s.turn := rfl

@[simp] theorem State.resetEvent_block (s : State) : (s.resetEvent).block = Block.reset s.block.cfg s.turn := rfl
@[simp] theorem State.resetEvent_host (s : State) : (s.resetEvent).host = s.host := rfl
@[simp] theorem State.resetEvent_schedule (s : State) : (s.resetEvent).schedule = s.schedule := rfl
@[simp] theorem State.resetEvent_turn (s : State) : (s.resetEvent).turn = s.turn := rfl

@[simp] theorem State.loadProgram_block (s : State) (p : List Stmt) : (s.loadProgram p).block = s.block := rfl
@[simp] theorem State.loadProgram_host (s : State) (p : List Stmt) : (s.loadProgram p).host = { HostAgent.noProgram with program := p, status := .running } := rfl
@[simp] theorem State.loadProgram_schedule (s : State) (p : List Stmt) : (s.loadProgram p).schedule = s.schedule := rfl
@[simp] theorem State.loadProgram_turn (s : State) (p : List Stmt) : (s.loadProgram p).turn = s.turn := rfl

end Sys2Proof.Machine
end

