-- ==== Sys2Proof/Laws/Ops.lean ====
section
/-! SUPPORT. What each shared operation can do, said once: the decoder, the bus, the ends of a command,
the four meanings, the host's turn and the step. -/

namespace Sys2Proof

/-! ### Decoding -/

/-- Each command's OP value reads back as the command. -/
@[simp] theorem instrOfOp_opOfInstr (i : Instr) : instrOfOp (opOfInstr i) = some i := by
  cases i <;> rfl

/-- The opcode map gives a command only for its own OP value. -/
theorem instrOfOp_eq_some {op : BitVec 4} {i : Instr} (h : instrOfOp op = some i) :
    op = opOfInstr i := by
  revert h; revert op
  cases i <;> decide

/-- The opcode map is defined exactly on 1 to 4 (30_encoding R91). -/
theorem instrOfOp_isSome (op : BitVec 4) :
    (instrOfOp op).isSome = true ↔ 1 ≤ op.toNat ∧ op.toNat ≤ 4 := by
  revert op; decide

/-- What the decoder accepts: RSV = 0 and an OP of the map. -/
theorem decode_eq_ok {w : Word} {i : Instr} (h : decode w = .ok i) :
    rsvField w = 0#28 ∧ instrOfOp (opField w) = some i := by
  unfold decode at h
  split at h
  · next hr =>
    split at h
    · next j hj => cases h; exact ⟨hr, hj⟩
    · cases h
  · cases h

namespace Machine

/-! ### The bus -/

/-- The register at a register's own offset is that register. -/
@[simp] theorem Reg.at_offset (r : Reg) : Reg.at r.offset = some r := by cases r <;> rfl

/-- A register is found only at its own offset. -/
theorem Reg.at_eq_some {a : Offset} {r : Reg} (h : Reg.at a = some r) : a = r.offset := by
  have := List.find?_some h
  simpa using (beq_iff_eq.mp this).symm

/-- A legal transaction on a buffer lies inside it (20_memory R64). -/
theorem Block.target_buffer {b : Block} {a : Offset} {n : Size} {which : Buffer} {i : Nat}
    (h : b.target a n = some (.buffer which i)) : i + n.bytes ≤ b.bufSize which := by
  unfold Block.target at h
  split at h
  · split at h
    · cases hr : Reg.at a <;> simp [hr] at h
    · cases h
  · split at h
    · unfold Block.bufferTarget at h
      split at h
      · cases h; next hc => exact hc.2
      · cases h
    · split at h
      · unfold Block.bufferTarget at h
        split at h
        · cases h; next hc => exact hc.2
        · cases h
      · cases h

/-- A legal transaction on a register is one of 4 bytes at its offset (20_memory R63). -/
theorem Block.target_reg {b : Block} {a : Offset} {n : Size} {r : Reg}
    (h : b.target a n = some (.reg r)) : a = r.offset ∧ n = .four := by
  unfold Block.target at h
  split at h
  · split at h
    · next hc =>
      cases hr : Reg.at a with
      | none => simp [hr] at h
      | some q =>
        simp only [hr, Option.map_some, Option.some.injEq, Target.reg.injEq] at h
        subst h
        exact ⟨Reg.at_eq_some hr, hc.1⟩
    · cases h
  · split at h
    · unfold Block.bufferTarget at h
      split at h <;> cases h
    · split at h
      · unfold Block.bufferTarget at h
        split at h <;> cases h
      · cases h

/-- A 4-byte transaction at a register's offset reaches it. -/
@[simp] theorem Block.target_offset (b : Block) (r : Reg) :
    b.target r.offset .four = some (.reg r) := by
  cases r <;> rfl

@[simp] theorem Block.busWrite_offset (b : Block) (r : Reg) (v : Word) :
    b.busWrite r.offset .four v = some (b.writeReg v r) := by
  simp [Block.busWrite]

@[simp] theorem Block.busRead_offset (turn : Nat) (b : Block) (r : Reg) :
    b.busRead turn r.offset .four = some (b.readReg turn r) := by
  simp [Block.busRead]

/-- Everything a host write that answers OK can do to the block (20_memory R70, 30_encoding R92). -/
inductive Block.WriteEffect (b : Block) (a : Offset) (n : Size) (v : Word) : Block → Prop where
  | dropped : b.fsm = .busy → Block.WriteEffect b a n v b.drop
  | acknowledged : a = Reg.status.offset → n = .four →
      Block.WriteEffect b a n v (b.writeStatus v)
  | controlled : a = Reg.ctrl.offset → n = .four → Block.WriteEffect b a n v (b.writeCtrl v)
  | issued (i : Instr) : b.fsm = .idle → a = Reg.cmd.offset → n = .four → decode v = .ok i →
      Block.WriteEffect b a n v (b.issue (opOfInstr i))
  | illegal (e : DecodeError) : b.fsm = .idle → a = Reg.cmd.offset → n = .four →
      decode v = .error e → Block.WriteEffect b a n v b.completeIllegal
  | inBase : b.fsm = .idle → a = Reg.inBase.offset → n = .four →
      Block.WriteEffect b a n v { b with inBase := v }
  | inLen : b.fsm = .idle → a = Reg.inLen.offset → n = .four →
      Block.WriteEffect b a n v { b with inLen := v }
  | outBase : b.fsm = .idle → a = Reg.outBase.offset → n = .four →
      Block.WriteEffect b a n v { b with outBase := v }
  | outCap : b.fsm = .idle → a = Reg.outCap.offset → n = .four →
      Block.WriteEffect b a n v { b with outCap := v }
  | value : b.fsm = .idle → a = Reg.value.offset → n = .four →
      Block.WriteEffect b a n v { b with value := v }
  | ignored : Block.WriteEffect b a n v b
  | stored (which : Buffer) (i : Nat) (xs : List Byte) : b.fsm = .idle →
      i + xs.length ≤ b.bufSize which → Block.WriteEffect b a n v (b.storeBytes which i xs)

/-- The effect of a write to a register. -/
theorem Block.writeReg_effect (b : Block) (r : Reg) (v : Word) :
    Block.WriteEffect b r.offset .four v (b.writeReg v r) := by
  have operand : ∀ (update : Block → Block), (b.fsm = .idle →
      Block.WriteEffect b r.offset .four v (update b)) →
      Block.WriteEffect b r.offset .four v (b.writeOperand update) := by
    intro update h
    unfold Block.writeOperand
    split
    · next hf => exact .dropped hf
    · next hf => exact h hf
  cases r with
  | cmd =>
    simp only [Block.writeReg, Block.writeCmd]
    split
    · next hf => exact .dropped hf
    · next hf =>
      split
      · next i hi =>
        rw [instrOfOp_eq_some (decode_eq_ok hi).2]
        exact .issued i hf rfl rfl hi
      · next e he => exact .illegal e hf rfl rfl he
  | status => exact .acknowledged rfl rfl
  | ctrl => exact .controlled rfl rfl
  | inBase => exact operand (fun b => { b with inBase := v }) fun h => .inBase h rfl rfl
  | inLen => exact operand (fun b => { b with inLen := v }) fun h => .inLen h rfl rfl
  | outBase => exact operand (fun b => { b with outBase := v }) fun h => .outBase h rfl rfl
  | outCap => exact operand (fun b => { b with outCap := v }) fun h => .outCap h rfl rfl
  | value => exact operand (fun b => { b with value := v }) fun h => .value h rfl rfl
  | outLen => exact .ignored
  | consumed => exact .ignored
  | id => exact .ignored
  | version => exact .ignored
  | ibufSizeReg => exact .ignored
  | obufSizeReg => exact .ignored

/-- A host write that answers OK has one of the effects of 20_memory R70. -/
theorem Block.busWrite_effect {b b' : Block} {a : Offset} {n : Size} {v : Word}
    (h : b.busWrite a n v = some b') : Block.WriteEffect b a n v b' := by
  unfold Block.busWrite at h
  split at h
  · cases h
  · next r hr =>
    cases h
    obtain ⟨rfl, rfl⟩ := Block.target_reg hr
    exact Block.writeReg_effect b r v
  · next which i hi =>
    cases h
    unfold Block.writeBuffer
    split
    · next hf => exact .dropped hf
    · next hf => exact .stored which i _ hf (by simpa using Block.target_buffer hi)

/-! ### The ends of a command -/

/-- Everything the body of a command can do to the block, before the common end (60_exceptions R202 to
R206; 40_rle R124, R125; 41_vlq R164, R165). -/
inductive Block.BodyEffect (turn : Nat) (b : Block) : Block → Prop where
  | raised (e : ErrCode) : e = .malformedData ∨ e = .endOfInput ∨ e = .bounds →
      Block.BodyEffect turn b (b.raise e)
  | overflowed : b.OutWindowOk →
      Block.BodyEffect turn b ((b.clobberOutput turn).raise .outputOverflow)
  | emitted (y : List Byte) (consumed : Word) : b.OutWindowOk → y.length ≤ b.outCap.toNat →
      (consumed = 0#32 ∨ (b.InWindowOk ∧ consumed = b.inLen)) →
      Block.BodyEffect turn b
        ((b.storeBytes .obuf b.outBase.toNat y).succeed (BitVec.ofNat 32 y.length) consumed false)
  | decoded (r : VlqResult) : b.InWindowOk → vlqDecode (b.inWindow turn) = .ok r →
      Block.BodyEffect turn b
        { b.succeed 0#32 (BitVec.ofNat 32 r.consumed) r.overlong with value := r.value }

/-- A command's output is written whole or overflows (30_encoding R96, 60_exceptions R206). -/
theorem Block.emit_effect {turn : Nat} {b : Block} (y : List Byte) (consumed : Word)
    (ho : b.OutWindowOk) (hc : consumed = 0#32 ∨ (b.InWindowOk ∧ consumed = b.inLen)) :
    Block.BodyEffect turn b (b.emit turn y consumed) := by
  unfold Block.emit
  split
  · exact .overflowed ho
  · exact .emitted y consumed ho (by omega) hc

/-- The body of a command. -/
def commandBody (i : Instr) : Nat → Block → Block :=
  match i with
  | .rleEncode => rleEncodeBody
  | .rleDecode => rleDecodeBody
  | .vlqEncode => vlqEncodeBody
  | .vlqDecode => vlqDecodeBody

/-- Every meaning is a completion step: the body, then the common end (60_exceptions R210). -/
theorem exec_eq_complete (i : Instr) (s : State) :
    exec i s = .next (s.complete (commandBody i s.turn)) := by cases i <;> rfl

/-- rle_decode fails only with MALFORMED_DATA (40_rle R122). -/
theorem rleDecode_error {y : List Byte} {e : ErrCode} (h : rleDecode y = .error e) :
    e = .malformedData := by
  unfold rleDecode at h
  split at h <;> cases h
  rfl

/-- vlq_decode fails only with END_OF_INPUT (41_vlq R162). -/
theorem vlqDecodeLoop_error {i acc : Nat} {y : List Byte} {e : ErrCode}
    (h : vlqDecodeLoop i acc y = .error e) : e = .endOfInput := by
  induction y generalizing i acc with
  | nil => cases h; rfl
  | cons x xs ih =>
    unfold vlqDecodeLoop at h
    split at h
    · cases h
    · exact ih h

/-- What vlq_decode consumes lies within its input (41_vlq R165: `1 <= k <= IN_LEN`). -/
theorem vlqDecodeLoop_consumed {i acc : Nat} {y : List Byte} {r : VlqResult}
    (h : vlqDecodeLoop i acc y = .ok r) : i < r.consumed ∧ r.consumed ≤ i + y.length := by
  induction y generalizing i acc with
  | nil => cases h
  | cons x xs ih =>
    unfold vlqDecodeLoop at h
    split at h
    · cases h
      simp only [vlqResult, List.length_cons]
      omega
    · have := ih h
      simp only [List.length_cons]
      omega

@[simp] theorem Block.inWindow_length (turn : Nat) (b : Block) :
    (b.inWindow turn).length = b.inLen.toNat := by simp [Block.inWindow]

/-- The body of each command has one of the listed effects. -/
theorem commandBody_effect (i : Instr) (turn : Nat) (b : Block) :
    Block.BodyEffect turn b (commandBody i turn b) := by
  cases i with
  | rleEncode =>
    simp only [commandBody, rleEncodeBody]
    split
    · next h => exact Block.emit_effect _ _ h.2 (.inr ⟨h.1, rfl⟩)
    · exact .raised _ (.inr (.inr rfl))
  | rleDecode =>
    simp only [commandBody, rleDecodeBody]
    split
    · next h =>
      split
      · exact Block.emit_effect _ _ h.2 (.inr ⟨h.1, rfl⟩)
      · next e he => exact .raised _ (.inl (rleDecode_error he))
    · exact .raised _ (.inr (.inr rfl))
  | vlqEncode =>
    simp only [commandBody, vlqEncodeBody]
    split
    · next h => exact Block.emit_effect _ _ h (.inl rfl)
    · exact .raised _ (.inr (.inr rfl))
  | vlqDecode =>
    simp only [commandBody, vlqDecodeBody]
    split
    · next h =>
      split
      · next r hr => exact .decoded r h hr
      · next e he => exact .raised _ (.inr (.inl (vlqDecodeLoop_error he)))
    · exact .raised _ (.inr (.inr rfl))

/-! ### The agents' turns -/

/-- Every turn waits for a later or the same turn that is the engine's (70_reset R241). -/
theorem engineTurnDue_wait (n : Nat) : engineTurnDue (n + Config.engineWait n) = true := by
  simp only [engineTurnDue, List.any_eq_true, List.mem_range, beq_iff_eq]
  exact ⟨n, by omega, rfl⟩

/-- Past the schedule's end the engine's turn comes when it is due. -/
theorem State.nextAgent_due {s : State} (hs : s.schedule = [])
    (ht : engineTurnDue s.turn = true) : s.nextAgent = .engine := by
  simp [State.nextAgent, hs, ht]

/-- What a step that answers a next state did: whose turn it was, and what that agent did. -/
theorem step_effect {s t : State} (h : step s = .next t) :
    (s.nextAgent = .host ∧ t = s.takeTurn.hostStep) ∨
      (s.nextAgent = .reset ∧ t = s.takeTurn.resetEvent) ∨
      (s.nextAgent = .engine ∧ s.block.fsm = .idle ∧ t = s.takeTurn) ∨
      (s.nextAgent = .engine ∧ s.block.fsm = .busy ∧ ∃ i, instrOfOp s.block.latchedOp = some i ∧
        t = s.takeTurn.complete (commandBody i s.takeTurn.turn)) := by
  unfold step at h
  generalize hag : s.nextAgent = ag at h
  cases ag with
  | host =>
    simp only [State.agentStep, Host.Outcome.next.injEq] at h
    exact .inl ⟨rfl, h.symm⟩
  | reset =>
    simp only [State.agentStep, Host.Outcome.next.injEq] at h
    exact .inr (.inl ⟨rfl, h.symm⟩)
  | engine =>
    simp only [State.agentStep, State.engineStep] at h
    split at h
    · next hf =>
      simp only [Host.Outcome.next.injEq] at h
      exact .inr (.inr (.inl ⟨rfl, hf, h.symm⟩))
    · next hf =>
      split at h
      · next i hi =>
        rw [exec_eq_complete, Host.Outcome.next.injEq] at h
        exact .inr (.inr (.inr ⟨rfl, hf, i, hi, h.symm⟩))
      · cases h

end Machine

end Sys2Proof
end

