-- ==== Sys2Proof/Laws/Bus.lean ====
section
/-! SUPPORT. The bus by region, and the host's turn by statement. -/

namespace Sys2Proof.Machine

theorem Size.bytes_cases (n : Size) : n.bytes = 1 ∨ n.bytes = 2 ∨ n.bytes = 4 := by
  cases n <;> simp [Size.bytes]

/-- A naturally aligned access inside a buffer reaches its bytes (20_memory R64). -/
theorem Block.target_of_index {b : Block} {which : Buffer} {a : Offset} {i : Nat} {n : Size}
    (ha : a.toNat = windowBase which + i) (hi : i % n.bytes = 0)
    (hs : i + n.bytes ≤ b.bufSize which) (hl : b.cfg.Legal) :
    b.target a n = some (.buffer which i) := by
  obtain ⟨⟨_, h1⟩, ⟨_, h2⟩⟩ := hl
  have hp := n.bytes_cases
  have hsub : a.toNat - windowBase which = i := by omega
  have hmod : a.toNat % n.bytes = 0 := by
    cases which <;> simp only [windowBase] at ha <;> rcases hp with h | h | h <;>
      rw [h] at hi ⊢ <;> omega
  have hbuf : b.bufferTarget which (windowBase which) a n = some (.buffer which i) := by
    unfold Block.bufferTarget
    rw [hsub, if_pos ⟨hmod, hs⟩]
  unfold Block.target
  cases which with
  | ibuf =>
    simp only [windowBase, Block.bufSize] at ha hs
    rw [if_neg (by omega), if_pos (by omega)]
    exact hbuf
  | obuf =>
    simp only [windowBase, Block.bufSize] at ha hs
    rw [if_neg (by omega), if_neg (by omega), if_pos (by omega)]
    exact hbuf

/-- What a legal buffer access says of its offset (20_memory R61, R64). -/
theorem Block.target_index {b : Block} {which : Buffer} {a : Offset} {i : Nat} {n : Size}
    (h : b.target a n = some (.buffer which i)) :
    a.toNat = windowBase which + i ∧ i % n.bytes = 0 ∧ i + n.bytes ≤ b.bufSize which := by
  have hp := n.bytes_cases
  have hmod : ∀ base, base % 4 = 0 → base ≤ a.toNat → a.toNat % n.bytes = 0 →
      (a.toNat - base) % n.bytes = 0 := by
    intro base h4 hle hm
    rcases hp with h | h | h <;> rw [h] at hm ⊢ <;> omega
  refine ⟨?_, ?_, Block.target_buffer h⟩ <;> unfold Block.target Block.bufferTarget at h <;>
    split at h
  · split at h
    · cases hr : Reg.at a <;> simp [hr] at h
    · cases h
  · split at h
    · split at h
      · cases h; simp only [windowBase]; omega
      · cases h
    · split at h
      · split at h
        · cases h; simp only [windowBase]; omega
        · cases h
      · cases h
  · split at h
    · cases hr : Reg.at a <;> simp [hr] at h
    · cases h
  · split at h
    · split at h
      · next hc => cases h; exact hmod _ (by decide) (by omega) hc.1
      · cases h
    · split at h
      · split at h
        · next hc => cases h; exact hmod _ (by decide) (by omega) hc.1
        · cases h
      · cases h

/-- Reads and writes are legal together (20_memory R63 to R65). -/
theorem Block.busRead_isSome (turn : Nat) (b : Block) (a : Offset) (n : Size) :
    (b.busRead turn a n).isSome = (b.target a n).isSome := by
  unfold Block.busRead
  cases b.target a n with
  | none => rfl
  | some t => cases t <;> rfl

theorem Block.busWrite_isSome (b : Block) (a : Offset) (n : Size) (v : Word) :
    (b.busWrite a n v).isSome = (b.target a n).isSome := by
  unfold Block.busWrite
  cases b.target a n with
  | none => rfl
  | some t => cases t <;> rfl

@[simp] theorem Block.readBytes_length (turn : Nat) (b : Block) (which : Buffer) (i n : Nat) :
    (b.readBytes turn which i n).length = n := by simp [Block.readBytes]

/-! ### The host's turn -/

/-- The step of a host whose next statement is `st`. -/
theorem step_of_runs {s : State} {st : Stmt} (h : s.RunsStatement st) :
    step s = .next (st.run s.takeTurn) := by
  obtain ⟨h1, h2, h3⟩ := h
  unfold step State.agentStep
  rw [h1]
  simp only [State.hostStep, State.takeTurn_host, h2, h3]

/-- The step of a host about to write. -/
theorem step_of_writes {s : State} {n : Size} {a : Offset} {v : Word} (h : s.HostWrites n a v) :
    step s = .next (s.takeTurn.hostWrite n a v) := by
  obtain ⟨st, hst, hw⟩ := h
  rw [step_of_runs hst]
  congr 1
  cases st <;> simp only [Stmt.writeOf, Option.some.injEq, Prod.mk.injEq, reduceCtorEq,
    Option.map_eq_some_iff] at hw
  · obtain ⟨rfl, rfl, rfl⟩ := hw; rfl
  · obtain ⟨rfl, rfl, rfl⟩ := hw; rfl
  · obtain ⟨rfl, rfl, rfl⟩ := hw; rfl
  · obtain ⟨x, hx, rfl, rfl, rfl⟩ := hw
    simp [Stmt.run, State.withTemp, hx]

/-- The step of a host about to read. -/
theorem step_of_reads {s : State} {n : Size} {t : Temp} {a : Offset} (h : s.HostReads n t a) :
    step s = .next (s.takeTurn.hostRead n t a) := by
  rcases h with ⟨rfl, h⟩ | ⟨rfl, h⟩ | ⟨rfl, h⟩ <;> exact step_of_runs h

/-- Everything a turn of the host can do: change the host only, or make the write of its statement and go
on to the next one (30_encoding R100). Schedule and turn stay. -/
theorem State.hostStep_effect (s : State) :
    (∃ h, s.hostStep = { s with host := h }) ∨
      ∃ st n a v b, s.host.status = .running ∧ s.host.program[s.host.index]? = some st ∧
        st.writeOf s.host = some (n, a, v) ∧ s.block.busWrite a n v = some b ∧
        s.hostStep = { s with block := b, host := s.host.next } := by
  have temp : ∀ t (k : Word → State), (∀ v, ∃ h, k v = { s with host := h }) →
      ∃ h, s.withTemp t k = { s with host := h } := by
    intro t k hk
    unfold State.withTemp
    split
    · exact hk _
    · exact ⟨_, rfl⟩
  have read : ∀ n t a, ∃ h, s.hostRead n t a = { s with host := h } := by
    intro n t a
    unfold State.hostRead
    split <;> exact ⟨_, rfl⟩
  unfold State.hostStep
  split
  case h_2 => exact .inl ⟨_, rfl⟩
  case h_3 => exact .inl ⟨_, rfl⟩
  next hrun =>
    split
    case h_2 => exact .inl ⟨_, rfl⟩
    next st hst =>
      have write : ∀ n a v, st.writeOf s.host = some (n, a, v) → st.run s = s.hostWrite n a v →
          (∃ h, st.run s = { s with host := h }) ∨
            ∃ st' n a v b, s.host.status = .running ∧ s.host.program[s.host.index]? = some st' ∧
              st'.writeOf s.host = some (n, a, v) ∧ s.block.busWrite a n v = some b ∧
              st.run s = { s with block := b, host := s.host.next } := by
        intro n a v hw he
        rw [he]
        unfold State.hostWrite
        cases hb : s.block.busWrite a n v with
        | none => exact .inl ⟨_, rfl⟩
        | some b => exact .inr ⟨st, n, a, v, b, hrun, hst, hw, hb, rfl⟩
      cases st with
      | wr32 off imm => exact write _ _ _ rfl rfl
      | wr16 off imm => exact write _ _ _ rfl rfl
      | wr8 off imm => exact write _ _ _ rfl rfl
      | wrT n off k =>
        cases hk : s.host.temp k with
        | none => exact .inl ⟨_, by simp only [Stmt.run, State.withTemp, hk]; rfl⟩
        | some v =>
          exact write n off v (by simp [Stmt.writeOf, hk])
            (by simp only [Stmt.run, State.withTemp, hk])
      | rd32 t off => exact .inl (read _ _ _)
      | rd16 t off => exact .inl (read _ _ _)
      | rd8 t off => exact .inl (read _ _ _)
      | li t imm => exact .inl ⟨_, rfl⟩
      | andi t m imm => exact .inl (temp _ _ fun _ => ⟨_, rfl⟩)
      | srli t m imm => exact .inl (temp _ _ fun _ => ⟨_, rfl⟩)
      | add t m k => exact .inl (temp _ _ fun _ => temp _ _ fun _ => ⟨_, rfl⟩)
      | sub t m k => exact .inl (temp _ _ fun _ => temp _ _ fun _ => ⟨_, rfl⟩)
      | b target => exact .inl ⟨_, rfl⟩
      | bnz t target => exact .inl (temp _ _ fun _ => ⟨_, rfl⟩)
      | bz t target => exact .inl (temp _ _ fun _ => ⟨_, rfl⟩)
      | halt => exact .inl ⟨_, rfl⟩

/-- What a host turn did to the machine: nothing but to the host, or the write it was about to make. -/
theorem host_turn_effect {s : State} (h : s.nextAgent = .host) :
    (∃ h', s.takeTurn.hostStep = { s.takeTurn with host := h' }) ∨
      ∃ n a v b, s.HostWrites n a v ∧ s.block.busWrite a n v = some b ∧
        s.takeTurn.hostStep = { s.takeTurn with block := b, host := s.host.next } := by
  rcases s.takeTurn.hostStep_effect with h' | ⟨st, n, a, v, b, h1, h2, h3, h4, h5⟩
  · exact .inl h'
  · exact .inr ⟨n, a, v, b, ⟨st, ⟨h, h1, h2⟩, h3⟩, h4, h5⟩

/-! ### Runs -/

@[simp] theorem run_zero (s : State) : Host.Core.run Sys2Proof.core 0 s = .next s := rfl

/-- A run goes on from the state its first step answers. -/
theorem run_succ {s t : State} (k : Nat) (h : step s = .next t) :
    Host.Core.run Sys2Proof.core (k + 1) s = Host.Core.run Sys2Proof.core k t := by
  have key : ∀ (M : Host.Core) (s t : M.State), M.step s = .next t →
      M.run (k + 1) s = M.run k t := by
    intro M s t h
    rw [Host.Core.run, h]
  exact key Sys2Proof.core s t h

/-- A run goes on by one step from the state it ends in. -/
theorem run_snoc {s t u : State} (k : Nat) (h : Host.Core.run Sys2Proof.core k s = .next t)
    (hu : step t = .next u) : Host.Core.run Sys2Proof.core (k + 1) s = .next u := by
  have key : ∀ (M : Host.Core) (k : Nat) (s t u : M.State), M.run k s = .next t →
      M.step t = .next u → M.run (k + 1) s = .next u := by
    intro M k
    induction k with
    | zero =>
      intro s t u h hu
      cases h
      rw [Host.Core.run, hu]
      rfl
    | succ k ih =>
      intro s t u h hu
      rw [Host.Core.run] at h ⊢
      split at h
      · next s' hs => exact ih s' t u h hu
      · cases h
      · cases h
  exact key Sys2Proof.core k s t u h hu

/-- Every step takes one turn: the schedule loses its first entry and the turn's number goes up. -/
theorem step_turn {s t : State} (h : step s = .next t) :
    t.schedule = s.schedule.tail ∧ t.turn = s.turn + 1 := by
  rcases step_effect h with ⟨_, rfl⟩ | ⟨_, rfl⟩ | ⟨_, _, rfl⟩ | ⟨_, _, _, _, rfl⟩
  · rcases s.takeTurn.hostStep_effect with ⟨_, h⟩ | ⟨_, _, _, _, _, _, _, _, _, h⟩ <;>
      rw [h] <;> exact ⟨rfl, rfl⟩
  · exact ⟨rfl, rfl⟩
  · exact ⟨rfl, rfl⟩
  · exact ⟨rfl, rfl⟩

/-! ### Temporaries -/

@[simp] theorem HostAgent.temp_setTemp_same (h : HostAgent) (t : Temp) (v : Word) :
    (h.setTemp t v).temp t = some v := by simp [HostAgent.temp, HostAgent.setTemp]

theorem HostAgent.temp_setTemp_other (h : HostAgent) {t t' : Temp} (v : Word) (hne : t' ≠ t) :
    (h.setTemp t v).temp t' = h.temp t' := by
  have : t.val ≠ t'.val := fun e => hne (Fin.ext e.symm)
  simp [HostAgent.temp, HostAgent.setTemp, this]

end Sys2Proof.Machine
end

