-- ==== Sys2Proof/Laws/Codec.lean ====
section
/-! SUPPORT. The codec functions: fuel is enough, and the equations they satisfy without it. -/

namespace Sys2Proof.Machine

/-! ### RLE -/

theorem runLength_le (x : Byte) (xs : List Byte) : runLength x xs ≤ xs.length := by
  induction xs with
  | nil => simp [runLength]
  | cons y ys ih => simp only [runLength, List.length_cons]; split <;> omega

theorem rleCount_pos (x : Byte) (xs : List Byte) : 1 ≤ rleCount x xs := by
  simp only [rleCount, Config.rleMaxRun]; omega

theorem rleCount_le (x : Byte) (xs : List Byte) :
    rleCount x xs ≤ 255 ∧ rleCount x xs ≤ xs.length + 1 := by
  have := runLength_le x xs
  simp only [rleCount, Config.rleMaxRun]
  omega

/-- Any fuel of at least the input's length gives the same encoding. -/
theorem rleEncodeLoop_fuel {n m : Nat} {x : List Byte} (hn : x.length ≤ n) (hm : x.length ≤ m) :
    rleEncodeLoop n x = rleEncodeLoop m x := by
  induction n generalizing m x with
  | zero =>
    have : x = [] := List.eq_nil_of_length_eq_zero (by omega)
    subst this
    cases m <;> rfl
  | succ n ih =>
    cases x with
    | nil => cases m <;> rfl
    | cons y ys =>
      cases m with
      | zero => simp at hm
      | succ m =>
        have hp := rleCount_pos y ys
        simp only [List.length_cons] at hn hm
        simp only [rleEncodeLoop]
        rw [ih (m := m) (by simp only [List.length_drop, List.length_cons]; omega)
          (by simp only [List.length_drop, List.length_cons]; omega)]

@[simp] theorem rleEncode_nil : rleEncode [] = [] := rfl

/-- The encoder emits one pair and goes on past exactly its count (40_rle R120). -/
theorem rleEncode_cons (x : Byte) (xs : List Byte) :
    rleEncode (x :: xs) = BitVec.ofNat 8 (rleCount x xs) :: x ::
      rleEncode ((x :: xs).drop (rleCount x xs)) := by
  have hp := rleCount_pos x xs
  simp only [rleEncode, List.length_cons, rleEncodeLoop]
  rw [rleEncodeLoop_fuel (m := ((x :: xs).drop (rleCount x xs)).length)
    (by simp only [List.length_drop, List.length_cons]; omega) (Nat.le_refl _)]

@[simp] theorem expandPairs_nil : expandPairs [] = [] := rfl

@[simp] theorem expandPairs_cons (c x : Byte) (rest : List Byte) :
    expandPairs (c :: x :: rest) = List.replicate c.toNat x ++ expandPairs rest := rfl

/-! ### VLQ -/

/-- The encoder emits one group and goes on with the rest (41_vlq R160). -/
theorem vlqEncodeLoop_succ (n v : Nat) : vlqEncodeLoop (n + 1) v =
    if v >>> 7 ≠ 0 then BitVec.ofNat 8 ((v &&& 0x7F) ||| 0x80) :: vlqEncodeLoop n (v >>> 7)
    else [BitVec.ofNat 8 (v &&& 0x7F)] := rfl

/-- A value of `7 * (n + 1)` bits needs no more than `n + 1` bytes of fuel. -/
theorem vlqEncodeLoop_fuel {n m v : Nat} (hn : v < 2 ^ (7 * (n + 1))) (hm : v < 2 ^ (7 * (m + 1))) :
    vlqEncodeLoop (n + 1) v = vlqEncodeLoop (m + 1) v := by
  induction n generalizing m v with
  | zero =>
    have : v >>> 7 = 0 := by rw [Nat.shiftRight_eq_div_pow]; omega
    simp [vlqEncodeLoop, this]
  | succ n ih =>
    have hs : v >>> 7 = v / 128 := Nat.shiftRight_eq_div_pow v 7
    rw [vlqEncodeLoop_succ (n + 1), vlqEncodeLoop_succ m]
    split
    · next hv =>
      cases m with
      | zero => rw [hs] at hv; omega
      | succ m =>
        have h1 : 2 ^ (7 * (n + 1 + 1)) = 128 * 2 ^ (7 * (n + 1)) := by
          rw [show 7 * (n + 1 + 1) = 7 + 7 * (n + 1) by omega, Nat.pow_add]
        have h2 : 2 ^ (7 * (m + 1 + 1)) = 128 * 2 ^ (7 * (m + 1)) := by
          rw [show 7 * (m + 1 + 1) = 7 + 7 * (m + 1) by omega, Nat.pow_add]
        rw [ih (m := m) (by rw [hs]; omega) (by rw [hs]; omega)]
    · rfl

/-- The bit the decoder tests is bit 7 (41_vlq R162). -/
theorem continuation_clear_iff (x : Byte) : x.toNat &&& 0x80 = 0 ↔ x.getLsbD 7 = false := by
  revert x; decide

/-- The group the decoder keeps is the low seven bits (41_vlq R162). -/
theorem group_eq_mod (x : Byte) : x.toNat &&& 0x7F = x.toNat % 128 := by
  revert x; decide

end Sys2Proof.Machine
end

