-- ==== Sys2Proof/Laws/PerInstr.lean ====
section
/-! SUPPORT. Per-instruction facts about the encoding, one lemma per constructor (30_encoding R90,
R91). -/

namespace Sys2Proof.Laws.WordShape

/-- The word of a command has RSV = 0, its OP field is the one of the opcode map, and OP is in 1..4
(30_encoding R91). -/
def Statement (i : Instr) : Prop :=
  rsvField (encode i) = 0#28 ∧ opField (encode i) = opOfInstr i ∧
    1 ≤ (opOfInstr i).toNat ∧ (opOfInstr i).toNat ≤ 4

theorem rleEncode : Statement .rleEncode := ⟨rfl, rfl, by decide, by decide⟩

theorem rleDecode : Statement .rleDecode := ⟨rfl, rfl, by decide, by decide⟩

theorem vlqEncode : Statement .vlqEncode := ⟨rfl, rfl, by decide, by decide⟩

theorem vlqDecode : Statement .vlqDecode := ⟨rfl, rfl, by decide, by decide⟩

end Sys2Proof.Laws.WordShape
end

