-- ==== Sys2Proof/Tests/Slice0.lean ====
section
/-! SUPPORT. Tests, each on one step or one function, with expected results from the named rows of
95_test_vectors or worked by hand from the rules; and one witness theorem for the hypotheses of each
statement that has any, each clause at a boundary. -/

namespace Sys2Proof.Tests

open Sys2Proof.Machine

/-! ### Helpers -/

/-- Small buffers, so that boundaries are near. -/
def cfg : Config := { ibufSize := 8, obufSize := 10 }

/-- An idle block with operands set and input bytes written from index 0 on. -/
def block (inBase inLen outBase outCap : Nat) (input : List Byte) : Block :=
  { Block.reset cfg 0 with
      inBase := BitVec.ofNat 32 inBase
      inLen := BitVec.ofNat 32 inLen
      outBase := BitVec.ofNat 32 outBase
      outCap := BitVec.ofNat 32 outCap
      ibuf := Memory.writeBytes [] 0 input }

/-- The block with a command running. -/
def busy (op : BitVec 4) (b : Block) : Block := { b with fsm := .busy, latchedOp := op }

/-- A state with the given block, host program and turns to come. -/
def state (b : Block) (program : List Stmt := []) (schedule : List Agent := []) : State :=
  { (State.reset.loadProgram program) with block := b, schedule := schedule }

/-- A state with VALUE set. -/
def valued (v : Word) (b : Block) : Block := { b with value := v }

/-- The step answers a next state in which `p` holds. -/
def answers (o : Host.Outcome State Fault Refusal) (p : State → Bool) : Bool :=
  match o with
  | .next t => p t
  | _ => false

/-- STATUS, OUT_LEN and CONSUMED after a step. -/
def results (t : State) : Word × Word × Word := (t.block.statusWord, t.block.outLen, t.block.consumed)

/-- The next state of an answer, else the state itself. -/
def nextOr (s : State) (o : Host.Outcome State Fault Refusal) : State :=
  match o with
  | .next t => t
  | _ => s

/-- The block `[41 41 41 42]` of RE3, with OUT_CAP 8. -/
def aaab : Block := block 0 4 0 8 [0x41#8, 0x41#8, 0x41#8, 0x42#8]

/-! ### Well-formedness: each check refuses an ill-formed term -/

theorem test_instr_wf : Instr.wellFormed .rleEncode = true := by decide
theorem test_config_wf : Config.default.wellFormed = true := by decide
theorem test_config_ibuf_zero : Config.wellFormed { ibufSize := 0, obufSize := 1 } = false := by decide
theorem test_config_ibuf_big : Config.wellFormed { ibufSize := 65537, obufSize := 1 } = false := by
  decide
theorem test_config_obuf_zero : Config.wellFormed { ibufSize := 1, obufSize := 0 } = false := by decide
theorem test_config_obuf_big : Config.wellFormed { ibufSize := 1, obufSize := 65537 } = false := by
  decide
theorem test_program_wf : programWellFormed [.b 1, .halt] = true := by decide
theorem test_b_out_of_range : programWellFormed [.b 2, .halt] = false := by decide
theorem test_bnz_out_of_range : programWellFormed [.bnz 0 1] = false := by decide
theorem test_bz_out_of_range : programWellFormed [.bz 0 1] = false := by decide
theorem test_loadb_past_window : Pseudo.wellFormed (.loadb 65535 [0#8, 0#8]) = false := by decide
theorem test_loadb_at_end : Pseudo.wellFormed (.loadb 65535 [0#8]) = true := by decide
theorem test_run_illegal : Pseudo.wellFormed (.run 0x5#32) = false := by decide

/-! ### Decoding: words written out from 30_encoding R90 and R91 -/

theorem test_decode_rle_encode :
    decode 0b00000000000000000000000000000001#32 = .ok .rleEncode := by rfl
theorem test_decode_rle_decode :
    decode 0b00000000000000000000000000000010#32 = .ok .rleDecode := by rfl
theorem test_decode_vlq_encode :
    decode 0b00000000000000000000000000000011#32 = .ok .vlqEncode := by rfl
theorem test_decode_vlq_decode :
    decode 0b00000000000000000000000000000100#32 = .ok .vlqDecode := by rfl
/-- IC1, IC2, IC3. -/
theorem test_decode_reserved_op :
    decode 0x0#32 = .error (.reservedOp 0x0#4) ∧ decode 0x5#32 = .error (.reservedOp 0x5#4) ∧
      decode 0xF#32 = .error (.reservedOp 0xF#4) := ⟨rfl, rfl, rfl⟩
/-- IC4, IC5. -/
theorem test_decode_reserved_bits :
    decode 0x80000001#32 = .error .reservedBitsSet ∧ decode 0x11#32 = .error .reservedBitsSet :=
  ⟨rfl, rfl⟩
theorem test_decode_table_word :
    decodeTableWord 32 3 = some .vlqEncode ∧ decodeTableWord 32 0 = none := by decide

/-! ### Commands -/

/-- RE3. -/
theorem test_rle_encode_aaab : answers (exec .rleEncode (state (busy 1#4 aaab))) (fun t =>
    results t == (0x02#32, 4#32, 4#32) &&
      t.block.obuf == [(0, 0x03#8), (1, 0x41#8), (2, 0x01#8), (3, 0x42#8)]) = true := by decide
/-- RE16: one byte short. -/
theorem test_rle_encode_overflow : answers (exec .rleEncode (state (block 0 2 0 3 [0x41#8, 0x42#8])))
    (fun t => results t == (0x52#32, 0#32, 0#32)) = true := by decide
/-- RD8: a pair with count 0. -/
theorem test_rle_decode_zero_count :
    answers (exec .rleDecode (state (block 0 6 4 5 [2#8, 0x41#8, 0#8, 0x42#8, 3#8, 0x43#8]))) (fun t =>
      results t == (0x02#32, 5#32, 6#32) &&
        t.block.obuf == [(4, 0x41#8), (5, 0x41#8), (6, 0x43#8), (7, 0x43#8), (8, 0x43#8)]) = true := by
  decide
/-- RD9: odd length comes before the output's length. -/
theorem test_rle_decode_odd :
    answers (exec .rleDecode (state (block 0 3 0 0 [0x41#8, 0x42#8, 0x43#8]))) (fun t =>
      results t == (0x12#32, 0#32, 0#32) && t.block.obuf == []) = true := by decide
/-- VE13. -/
theorem test_vlq_encode_five_bytes :
    answers (exec .vlqEncode (state (valued 0x12345678#32 (block 0xFFFFFFFF 0xFFFFFFFF 0 5 []))))
      (fun t => results t == (0x02#32, 5#32, 0#32) &&
        t.block.obuf == [(0, 0xF8#8), (1, 0xAC#8), (2, 0xD1#8), (3, 0x91#8), (4, 0x01#8)]) = true := by
  decide
/-- VE20: the window's end is one past the buffer's. -/
theorem test_vlq_encode_bounds :
    answers (exec .vlqEncode (state (valued 1#32 (block 0 0 10 1 []))))
      (fun t => results t == (0x42#32, 0#32, 0#32) && t.block.value == 1#32) = true := by decide
/-- VD8: the byte after the terminating byte is not read. -/
theorem test_vlq_decode_300 :
    answers (exec .vlqDecode (state (block 0 3 0xFFFFFFFF 0xFFFFFFFF [0xAC#8, 0x02#8, 0x41#8])))
      (fun t => results t == (0x02#32, 0#32, 2#32) && t.block.value == 300#32) = true := by decide
/-- VD14: over-long, the sixth group shifted out. -/
theorem test_vlq_decode_overlong :
    answers (exec .vlqDecode (state (block 0 6 0 0 [0x81#8, 0x80#8, 0x80#8, 0x80#8, 0x80#8, 0x01#8])))
      (fun t => results t == (0x0A#32, 0#32, 6#32) && t.block.value == 1#32) = true := by decide

/-! ### The shell -/

/-- IC6: an issue clears DONE and ERR and keeps WDROP. -/
theorem test_issue_keeps_wdrop :
    (({ aaab with err := 1#4, wdrop := true, done := true }).writeCmd 1#32).statusWord = 0x05#32 := by
  decide
/-- BA9, BA10. -/
theorem test_little_endian :
    (aaab.busWrite 0x10000#18 .four 0x44332211#32).map (fun b =>
      (b.busRead 0 0x10001#18 .one, b.busRead 0 0x10002#18 .two)) =
      some (some 0x22#32, some 0x4433#32) := by decide
/-- BA5, BA6, BA7, BA11, BA14. -/
theorem test_illegal_reads :
    aaab.busRead 0 0x04#18 .two = none ∧ aaab.busRead 0 0x06#18 .four = none ∧
      aaab.busRead 0 0x38#18 .four = none ∧ aaab.busRead 0 0x10001#18 .two = none ∧
      aaab.busRead 0 0x30000#18 .one = none := by decide
/-- BA15: DONE and WDROP cleared, ERR kept. -/
theorem test_status_w1c :
    (({ aaab with err := 2#4, wdrop := true, done := true }).busWrite 0x04#18 .four
      0xFFFFFFFF#32).map Block.statusWord = some 0x20#32 := by decide
/-- BA17, BA18. -/
theorem test_busy_drop :
    ((busy 1#4 aaab).busWrite 0x10#18 .four 9#32).map (fun b => (b.inLen, b.wdrop)) =
        some (4#32, true) ∧
      (busy 1#4 aaab).busWrite 0x10#18 .two 9#32 = none := by decide
/-- IC9 with IC10: the engine's turn completes the command, and IRQ rises. -/
theorem test_engine_turn_completes :
    answers (step (state { busy 1#4 aaab with ie := true } [] [.engine]))
      (fun t => results t == (0x02#32, 4#32, 4#32) && t.block.irq) = true := by decide
/-- RS2. -/
theorem test_reset_aborts :
    answers (step (state { busy 1#4 aaab with ie := true } [] [.reset]))
      (fun t => results t == (0#32, 0#32, 0#32) && t.block.fsm == .idle && !t.block.irq) = true := by
  decide
/-- The word of RLE_DECODE placed before the engine: 40_rle R125 on empty windows. -/
theorem test_fetch_word_runs :
    answers (step (State.reset.withFetchWord 32 2)) (fun t => results t == (0x02#32, 0#32, 0#32)) =
      true := by decide
/-- The expansions of RUN, WAIT and LOADB (30_encoding R100). -/
theorem test_assemble :
    assemble [.loadb 0 [0x41#8, 0x42#8], .run 1#32, .wait 0] =
      [.wr8 0x10000#18 0x41#8, .wr8 0x10001#18 0x42#8, .wr32 0x00#18 1#32, .rd32 0 0x04#18,
        .andi 0 0 1#32, .bnz 0 3] := by decide
/-- P5, statement 9: a 2-byte read of a register ends the host program there. -/
theorem test_host_bus_error :
    answers (step (state aaab [.rd16 2 0x04#18, .halt] [.host])) (fun t =>
      t.host.status == .faulted .busError && t.host.index == 0) = true := by decide

/-! ### Witnesses: for each statement, data that meets its hypotheses, clause by clause at a boundary -/

/-- A host about to write `v` at `a`. -/
theorem writes32 (b : Block) (a : Offset) (v : Word) (rest : List Agent) :
    (state b [.wr32 a v] (.host :: rest)).HostWrites .four a v := ⟨.wr32 a v, ⟨rfl, rfl, rfl⟩, rfl⟩

/-- A host about to write a byte `v` at `a`. -/
theorem writes8 (b : Block) (a : Offset) (v : Byte) (rest : List Agent) :
    (state b [.wr8 a v] (.host :: rest)).HostWrites .one a (v.setWidth 32) :=
  ⟨.wr8 a v, ⟨rfl, rfl, rfl⟩, rfl⟩

/-- A host about to read a word at `a`. -/
theorem reads32 (b : Block) (t : Temp) (a : Offset) (rest : List Agent) :
    (state b [.rd32 t a] (.host :: rest)).HostReads .four t a := .inl ⟨rfl, rfl, rfl, rfl⟩

/-- A host about to run `st`. -/
theorem runs (b : Block) (st : Stmt) (rest : List Agent) :
    (state b [st] (.host :: rest)).RunsStatement st := ⟨rfl, rfl, rfl⟩

/-- The block of `aaab` with RLE_ENCODE running meets the invariant. -/
theorem aaab_inv : (state (busy 1#4 aaab) [] [.engine]).Inv :=
  ⟨by decide, by decide, by decide, by decide, by decide, by decide, by decide, by decide, by decide⟩

theorem no_instr {w : Word} (h : 5 ≤ w.toNat) : ∀ i, w ≠ encode i := by
  intro i e
  subst e
  cases i <;> revert h <;> decide

theorem no_instr_zero : ∀ i, (0#32 : Word) ≠ encode i := by
  intro i
  cases i <;> decide

theorem witness_DecodeEncodeAgreeOnEveryWord :
    decode 0x1#32 = .ok .rleEncode ∧ decode 0x4#32 = .ok .vlqDecode ∧
      (0x4#32).extractLsb' 4 28 = 0#28 ∧ ((0x4#32).extractLsb' 0 4).toNat = 4 := by
  exact ⟨rfl, rfl, by decide, by decide⟩

theorem witness_CmdWriteIssuesDropsOrCompletes :
    (busy 1#4 aaab).fsm = .busy ∧
    (aaab.fsm = .idle ∧ (0x4#32).extractLsb' 4 28 = 0#28 ∧
      (0x4#32).extractLsb' 0 4 ∈ [0x1#4, 0x2#4, 0x3#4, 0x4#4]) ∧
    (aaab.fsm = .idle ∧ ¬ ((0x5#32).extractLsb' 4 28 = 0#28 ∧
      (0x5#32).extractLsb' 0 4 ∈ [0x1#4, 0x2#4, 0x3#4, 0x4#4])) ∧
    ¬ ((0x11#32).extractLsb' 4 28 = 0#28 ∧
      (0x11#32).extractLsb' 0 4 ∈ [0x1#4, 0x2#4, 0x3#4, 0x4#4]) := by decide

theorem witness_CmdWriteIssuesDropsOrCompletes_busy :
    (busy 1#4 aaab).fsm = .busy ∧
      (busy 1#4 aaab).busWrite 0x0C#18 .four 3#32 = some { busy 1#4 aaab with wdrop := true } := by
  decide

theorem witness_IllegalCommandCompletesInItsWrite :
    (state aaab [.wr32 0x00#18 0x5#32] [.host]).block.fsm = .idle ∧
      (state aaab [.wr32 0x00#18 0x5#32] [.host]).HostWrites .four Reg.cmd.offset 0x5#32 ∧
      ∀ i, (0x5#32 : Word) ≠ encode i :=
  ⟨rfl, writes32 .., no_instr (by decide)⟩

theorem witness_OperandRegistersHoldWhatIsWritten : aaab.fsm = .idle := rfl

theorem witness_IdentificationRegistersAreConstant :
    Config.Legal { ibufSize := 1, obufSize := 65536 } ∧
      Config.Legal { ibufSize := 65536, obufSize := 1 } := by decide

theorem witness_RegisterPageLegality :
    (0x34#18).toNat < 0x10000 ∧ aaab.busRead 0 0x34#18 .four = some 10#32 ∧
      (0x38#18).toNat < 0x10000 ∧ aaab.busRead 0 0x38#18 .four = none ∧
      (0xFFFF#18).toNat < 0x10000 ∧ aaab.busWrite 0xFFFF#18 .one 0#32 = none := by decide

theorem witness_BufferWindowLegality_ibuf :
    0x10000 ≤ (0x10007#18).toNat ∧ (0x10007#18).toNat < 0x20000 ∧
      (aaab.busWrite 0x10007#18 .one 1#32).isSome = true ∧
      (aaab.busWrite 0x10006#18 .four 1#32).isSome = false ∧
      (aaab.busWrite 0x10008#18 .one 1#32).isSome = false ∧
      (aaab.busWrite 0x1FFFF#18 .one 1#32).isSome = false := by decide

theorem witness_BufferWindowLegality_obuf :
    0x20000 ≤ (0x20008#18).toNat ∧ (0x20008#18).toNat < 0x30000 ∧
      (aaab.busWrite 0x20008#18 .two 1#32).isSome = true ∧
      (aaab.busWrite 0x20008#18 .four 1#32).isSome = false ∧
      (aaab.busWrite 0x2FFFF#18 .one 1#32).isSome = false := by decide

theorem witness_UnmappedOffsetsAreIllegal :
    0x30000 ≤ (0x30000#18).toNat ∧
    ((0x38#18).toNat < 0x10000 ∧ ∀ r : Reg, (0x38#18 : Offset) ≠ r.offset) ∧
    (0x10000 + aaab.cfg.ibufSize ≤ (0x10008#18).toNat ∧ (0x10008#18).toNat < 0x20000) ∧
    (0x20000 + aaab.cfg.obufSize ≤ (0x2000A#18).toNat ∧ (0x2000A#18).toNat < 0x30000) := by
  refine ⟨by decide, ⟨by decide, fun r => ?_⟩, by decide, by decide⟩
  cases r <;> decide

theorem witness_BusErrorEndsTheHostProgram_write :
    (state aaab [.wr32 0x38#18 1#32] [.host]).HostWrites .four 0x38#18 1#32 ∧
      (state aaab [.wr32 0x38#18 1#32] [.host]).block.busWrite 0x38#18 .four 1#32 = none :=
  ⟨writes32 .., by decide⟩

theorem witness_BusErrorEndsTheHostProgram_read :
    (state aaab [.rd32 3 0x10006#18] [.host]).HostReads .four 3 0x10006#18 ∧
      (state aaab [.rd32 3 0x10006#18] [.host]).block.busRead 1 0x10006#18 .four = none :=
  ⟨reads32 .., by decide⟩

/-- OUT_LEN and CONSUMED apart at FSM = IDLE, and CMD reads 0 (BA4). -/
theorem test_result_registers_read :
    ({ aaab with outLen := 3#32, consumed := 5#32 }.busRead 0 0x1C#18 .four,
      { aaab with outLen := 3#32, consumed := 5#32 }.busRead 0 0x20#18 .four,
      aaab.busRead 0 0x00#18 .four) = (some 3#32, some 5#32, some 0#32) := by decide

theorem witness_BufferReadsAreLittleEndian :
    ((0x10004#18).toNat = windowBase .ibuf + 4 ∧ 4 % Size.four.bytes = 0 ∧
      4 + Size.four.bytes ≤ aaab.bufSize .ibuf ∧ aaab.cfg.Legal) ∧ aaab.fsm = .idle := by decide

theorem witness_BufferWritesStoreLittleEndian :
    ((0x20008#18).toNat = windowBase .obuf + 8 ∧ 8 % Size.two.bytes = 0 ∧
      8 + Size.two.bytes ≤ aaab.bufSize .obuf ∧ aaab.cfg.Legal) ∧
    (busy 1#4 aaab).fsm = .busy ∧ aaab.fsm = .idle ∧ Size.four = .four := by decide

theorem witness_ReadsHaveNoSideEffect_step :
    (state aaab [.rd32 0 0x04#18] [.host]).HostReads .four 0 0x04#18 ∧
      step (state aaab [.rd32 0 0x04#18] [.host]) =
        .next (nextOr State.reset (step (state aaab [.rd32 0 0x04#18] [.host]))) :=
  ⟨reads32 .., rfl⟩

/-- The first two OBUF bytes after the running command's output window, and the last one inside it. -/
theorem witness_ReadsHaveNoSideEffect_busy :
    aaab.fsm = .idle ∧
    (0x20008#18 ≠ Reg.outLen.offset ∧ 0x20008#18 ≠ Reg.consumed.offset ∧
      0x20008#18 ≠ Reg.value.offset ∧
      ((busy 1#4 aaab).RunsOutputCommand → ∀ k, k < Size.two.bytes → (0x20008#18).toNat < 0x20000 ∨
        ¬ (busy 1#4 aaab).InOutWindow ((0x20008#18).toNat - 0x20000 + k))) ∧
    (busy 1#4 aaab).RunsOutputCommand ∧
    (busy 1#4 aaab).InOutWindow ((0x20007#18).toNat - 0x20000 + 0) := by decide

theorem witness_LegalWritesFollowTheTable :
    (Reg.cmd.Droppable ∧ (busy 1#4 aaab).fsm = .busy) ∧ Reg.outLen.ReadOnly ∧ aaab.fsm = .idle ∧
      (0x1#32 = encode .rleEncode) ∧ aaab.cfg.Legal ∧
      ((0x10007#18).toNat = windowBase .ibuf + 7 ∧ 7 % Size.one.bytes = 0 ∧
        7 + Size.one.bytes ≤ aaab.bufSize .ibuf) := by decide

theorem witness_LegalWritesFollowTheTable_illegal :
    (∀ i, (0x5#32 : Word) ≠ encode i) ∧ ∀ i, (0x0#32 : Word) ≠ encode i :=
  ⟨no_instr (by decide), no_instr_zero⟩

theorem witness_BusyReadsHideResults :
    (busy 3#4 aaab).fsm = .busy ∧ (busy 3#4 aaab).latchedOp ∈ [0x1#4, 0x2#4, 0x3#4] ∧
      (busy 3#4 aaab).InOutWindow 7 ∧ ¬ (busy 3#4 aaab).InOutWindow 8 ∧
      (busy 4#4 aaab).latchedOp ∉ [0x1#4, 0x2#4, 0x3#4] := by decide

theorem witness_BusyReadsHideResults_inv : (busy 1#4 aaab).Inv := aaab_inv

theorem witness_RleEncodeScansMaximalRuns :
    ([0x42#8] : List Byte).head? ≠ some 0x41#8 ∧ ([] : List Byte).head? ≠ some 0x41#8 := by decide

theorem witness_RleEncodeProperties :
    rleEncode [0x41#8, 0x41#8, 0x42#8] = [0x02#8, 0x41#8, 0x01#8, 0x42#8] ∧ 2 * 1 < 4 ∧
      (rleEncode (List.replicate 256 0#8)).getD 1 0 = (rleEncode (List.replicate 256 0#8)).getD 3 0 ∧
      2 * 0 + 3 < (rleEncode (List.replicate 256 0#8)).length := by
  decide +kernel

theorem witness_RleDecodeExpandsPairs :
    ([0x41#8] : List Byte).length % 2 = 1 ∧ ([] : List Byte).length % 2 = 0 := by decide

theorem witness_RleDecodeProperties :
    (rleDecode [0xFF#8, 0x00#8]).toOption = some (List.replicate 255 0x00#8) := by decide +kernel

theorem witness_VlqEncodeEmitsGroups : (0x80#32) >>> 7 ≠ 0#32 ∧ (0x7F#32) >>> 7 = 0#32 := by decide

theorem witness_VlqEncodeLengthTable :
    (0x7F#32).toNat ≤ 0x7F ∧ (0x80 ≤ (0x80#32).toNat ∧ (0x3FFF#32).toNat ≤ 0x3FFF) ∧
      (0x4000 ≤ (0x4000#32).toNat ∧ (0x1FFFFF#32).toNat ≤ 0x1FFFFF) ∧
      (0x200000 ≤ (0x200000#32).toNat ∧ (0x0FFFFFFF#32).toNat ≤ 0x0FFFFFFF) ∧
      0x10000000 ≤ (0x10000000#32).toNat ∧ 2 ≤ (vlqEncode 0x80#32).length ∧
      (vlqEncode 0x3FFF#32).length = 2 ∧ (vlqEncode 0x4000#32).length = 3 ∧
      (vlqEncode 0x1FFFFF#32).length = 3 ∧ (vlqEncode 0x200000#32).length = 4 ∧
      (vlqEncode 0x0FFFFFFF#32).length = 4 ∧ (vlqEncode 0x10000000#32).length = 5 ∧
      (vlqEncode 0xFFFFFFFF#32).length = 5 := by decide

theorem witness_VlqDecodeReadsToTerminator :
    (∀ x ∈ [0xFF#8, 0x80#8], x.getLsbD 7 = true) ∧ (0x7F#8).getLsbD 7 = false ∧
      ∀ x ∈ ([] : List Byte), x.getLsbD 7 = true := by decide

/-- Clauses (b), (c) and (f) at their least inputs, (e) at the sum 2^32, and (g) at five bytes. -/
theorem witness_VlqDecodeProperties :
    vlqDecode [0xAC#8, 0x02#8] = .ok { value := 300#32, consumed := 2, overlong := false } ∧
    ((∀ x ∈ ([] : List Byte), x.getLsbD 7 = true) ∧ (0x00#8).getLsbD 7 = false) ∧
    ((∀ x ∈ List.replicate 5 0x80#8, x.getLsbD 7 = true) ∧ 5 ≤ (List.replicate 5 0x80#8).length) ∧
    (∀ x ∈ [0x80#8], x.getLsbD 7 = true) ∧
    vlqDecode [0x80#8, 0x80#8, 0x80#8, 0x80#8, 0x10#8] =
      .ok { value := 0#32, consumed := 5, overlong := true } ∧
    2 ^ 32 ≤ vlqSum ([0x80#8, 0x80#8, 0x80#8, 0x80#8, 0x10#8].take 5) :=
  ⟨rfl, by decide, by decide, by decide, rfl, by decide⟩

/-- Windows that end where the buffers end, and an output exactly as long as OUT_CAP. -/
theorem witness_RleEncodeWritesTheEncoding :
    (block 6 2 6 4 [0#8, 0#8, 0#8, 0#8, 0#8, 0#8, 0x41#8, 0x42#8]).InWindowOk ∧
      (block 6 2 6 4 [0#8, 0#8, 0#8, 0#8, 0#8, 0#8, 0x41#8, 0x42#8]).OutWindowOk ∧
      (rleEncode ((block 6 2 6 4 [0#8, 0#8, 0#8, 0#8, 0#8, 0#8, 0x41#8, 0x42#8]).inWindow 0)).length =
        4 := by decide

theorem witness_RleDecodeWritesTheExpansion :
    (block 0 2 7 3 [3#8, 0x41#8]).InWindowOk ∧ (block 0 2 7 3 [3#8, 0x41#8]).OutWindowOk ∧
      (block 0 2 7 3 [3#8, 0x41#8]).inLen.toNat % 2 = 0 ∧
      (rleDecode ((block 0 2 7 3 [3#8, 0x41#8]).inWindow 0)).toOption =
        some [0x41#8, 0x41#8, 0x41#8] := by decide

theorem witness_VlqEncodeWritesTheEncoding :
    (valued 300#32 (block 9 9 8 2 [])).OutWindowOk ∧
      (vlqEncode (valued 300#32 (block 9 9 8 2 [])).value).length = 2 := by decide

theorem witness_VlqDecodeSetsValue :
    (block 0 1 9 9 [0x00#8]).InWindowOk ∧
      ∃ x ∈ (block 0 1 9 9 [0x00#8]).inWindow 0, x.getLsbD 7 = false := by decide

theorem witness_BoundsIsCheckedFirst :
    ¬ (block 8 1 0 0 []).InWindowOk ∧ ¬ (block 0 0 10 1 []).OutWindowOk ∧
      (nextOr State.reset (exec .rleDecode (state (block 8 1 0 0 [])))).block.err = 4#4 := by decide

theorem witness_MalformedDataOnOddLength :
    (block 7 1 0 10 []).InWindowOk ∧ (block 7 1 0 10 []).OutWindowOk ∧
      (block 7 1 0 10 []).inLen.toNat % 2 = 1 ∧
      (nextOr State.reset (exec .rleDecode (state (block 7 1 0 10 [])))).block.err = 1#4 := by decide

theorem witness_EndOfInputWithoutTerminator :
    ((block 0 2 0 0 [0x80#8, 0xFF#8]).InWindowOk ∧
      ∀ x ∈ (block 0 2 0 0 [0x80#8, 0xFF#8]).inWindow 0, x.getLsbD 7 = true) ∧
    ((block 8 0 0 0 []).InWindowOk ∧ (block 8 0 0 0 []).inLen = 0#32) ∧
    (nextOr State.reset (exec .vlqDecode (state (block 8 0 0 0 [])))).block.err = 2#4 := by decide

theorem witness_OutputOverflowClobbersTheWindow :
    ((block 0 2 7 3 [0x41#8, 0x42#8]).OutWindowOk ∧ (block 0 2 7 3 [0x41#8, 0x42#8]).InWindowOk ∧
      3 < (rleEncode ((block 0 2 7 3 [0x41#8, 0x42#8]).inWindow 0)).length) ∧
    ((block 0 2 7 3 [4#8, 0x42#8]).OutWindowOk ∧ (block 0 2 7 3 [4#8, 0x42#8]).InWindowOk ∧
      ((rleDecode ((block 0 2 7 3 [4#8, 0x42#8]).inWindow 0)).toOption.map List.length) = some 4) ∧
    ((valued 0x80#32 (block 0 0 9 1 [])).OutWindowOk ∧
      1 < (vlqEncode (valued 0x80#32 (block 0 0 9 1 [])).value).length) ∧
    (nextOr State.reset (exec .rleEncode (state (block 0 2 7 3 [0x41#8, 0x42#8])))).block.err = 5#4 ∧
    (nextOr State.reset (exec .rleDecode (state (block 0 2 7 3 [4#8, 0x42#8])))).block.err = 5#4 ∧
    (nextOr State.reset (exec .vlqEncode (state (valued 0x80#32 (block 0 0 9 1 []))))).block.err =
      5#4 := by decide

theorem witness_CommandErrorsChangeOnlyResults :
    exec .rleDecode (state (block 7 1 0 10 [])) =
        .next (nextOr State.reset (exec .rleDecode (state (block 7 1 0 10 [])))) ∧
      (nextOr State.reset (exec .rleDecode (state (block 7 1 0 10 [])))).block.err ≠ 0#4 ∧
      (nextOr State.reset (exec .rleDecode (state (block 7 1 0 10 [])))).block.err ≠ 5#4 :=
  ⟨rfl, by decide, by decide⟩

theorem witness_EveryCommandCompletesWithinItsFrame :
    ¬ aaab.InOutWindow 8 ∧ aaab.InOutWindow 7 := by decide

theorem witness_CommandsReadOnlyTheirInputWindow :
    (∀ j, aaab.inBase.toNat ≤ j → j < aaab.inBase.toNat + aaab.inLen.toNat →
      (aaab.ibuf.write 4 0x99#8).lookup j = aaab.ibuf.lookup j) ∧
      exec .rleEncode (state aaab) = .next (nextOr State.reset (exec .rleEncode (state aaab))) ∧
      exec .vlqEncode (state aaab) = .next (nextOr State.reset (exec .vlqEncode (state aaab))) := by
  refine ⟨fun j _ h => ?_, rfl, rfl⟩
  have : j < 4 := h
  interval_cases j <;> decide

theorem witness_VlqDecodeStopsAtTerminator :
    (block 0 3 0 0 [0xAC#8, 0x02#8, 0x41#8]).InWindowOk ∧ 1 < (3#32).toNat ∧
      ((block 0 3 0 0 [0xAC#8, 0x02#8, 0x41#8]).engineByte 0 1).getLsbD 7 = false ∧
      (∀ j < 2, (Memory.writeBytes [] 0 [0xAC#8, 0x02#8]).lookup j =
        (block 0 3 0 0 [0xAC#8, 0x02#8, 0x41#8]).ibuf.lookup j) ∧
      answers (exec .vlqDecode (state (block 0 3 0 0 [0xAC#8, 0x02#8, 0x41#8]))) (fun _ => true) =
        true := by decide

theorem witness_RleEncodeNeverFailsWithRoom :
    (block 4 4 2 8 []).InWindowOk ∧ (block 4 4 2 8 []).OutWindowOk ∧
      2 * (block 4 4 2 8 []).inLen.toNat ≤ (block 4 4 2 8 []).outCap.toNat := by decide

/-- What RLE_ENCODE left in OBUF of `aaab`, copied to IBUF at 4, the last place it fits. -/
theorem witness_RleCommandRoundTrip :
    exec .rleEncode (state aaab) = .next (nextOr State.reset (exec .rleEncode (state aaab))) ∧
    (nextOr State.reset (exec .rleEncode (state aaab))).block.err = 0#4 ∧
    (nextOr State.reset (exec .rleEncode (state aaab))).block.outLen = 4#32 ∧
    (∀ k < 4, (block 4 4 6 4 [0#8, 0#8, 0#8, 0#8, 3#8, 0x41#8, 1#8, 0x42#8]).ibuf.lookup (4 + k) =
      some ((nextOr State.reset (exec .rleEncode (state aaab))).block.byte .obuf (0 + k))) ∧
    (block 4 4 6 4 [0#8, 0#8, 0#8, 0#8, 3#8, 0x41#8, 1#8, 0x42#8]).InWindowOk ∧
    (block 4 4 6 4 [0#8, 0#8, 0#8, 0#8, 3#8, 0x41#8, 1#8, 0x42#8]).OutWindowOk ∧
    aaab.inLen.toNat ≤ 4 := ⟨rfl, by decide, by decide, by decide, by decide, by decide, by decide⟩

/-- What VLQ_ENCODE left in OBUF for 300, copied to IBUF at 5 with a byte after it. -/
theorem witness_VlqCommandRoundTrip :
    exec .vlqEncode (state (valued 300#32 (block 0 0 8 2 []))) =
      .next (nextOr State.reset (exec .vlqEncode (state (valued 300#32 (block 0 0 8 2 []))))) ∧
    (nextOr State.reset (exec .vlqEncode (state (valued 300#32 (block 0 0 8 2 []))))).block.err = 0#4 ∧
    (nextOr State.reset (exec .vlqEncode (state (valued 300#32 (block 0 0 8 2 []))))).block.outLen =
      2#32 ∧
    (∀ k < 2, (block 5 3 0 0 [0#8, 0#8, 0#8, 0#8, 0#8, 0xAC#8, 2#8, 0x80#8]).ibuf.lookup (5 + k) =
      some ((nextOr State.reset (exec .vlqEncode
        (state (valued 300#32 (block 0 0 8 2 []))))).block.byte .obuf (8 + k))) ∧
    (2#32).toNat ≤ (block 5 3 0 0 []).inLen.toNat ∧
    (block 5 3 0 0 [0#8, 0#8, 0#8, 0#8, 0#8, 0xAC#8, 2#8, 0x80#8]).InWindowOk :=
  ⟨rfl, by decide, by decide, by decide, by decide, by decide⟩

theorem witness_EngineStepRunsTheLatchedCommand :
    (state (busy 4#4 aaab) [] [.engine]).nextAgent = .engine ∧ (busy 4#4 aaab).fsm = .busy ∧
      (busy 4#4 aaab).latchedOp = opOfInstr .vlqDecode := by decide

theorem witness_IssuedWordRunsItsCommand :
    aaab.fsm = .idle ∧
      (state aaab [.wr32 0x00#18 0x1#32] [.host, .engine]).HostWrites .four Reg.cmd.offset
        (encode .rleEncode) ∧
      (nextOr State.reset (step (state aaab [.wr32 0x00#18 0x1#32] [.host, .engine]))).nextAgent =
        .engine := ⟨rfl, writes32 .., rfl⟩

theorem witness_PlacedWordRunsItsCommand : decode 0x4#32 = .ok .vlqDecode := rfl

theorem witness_EngineIsEnabledOnlyWhenBusy :
    (state aaab [] [.engine]).nextAgent = .engine ∧ aaab.fsm = .idle ∧
      (busy 0#4 aaab).fsm = .busy ∧ (∀ i, (busy 0#4 aaab).latchedOp ≠ opOfInstr i) ∧
      ∀ i, (busy 5#4 aaab).latchedOp ≠ opOfInstr i :=
  ⟨rfl, rfl, rfl, fun i => by cases i <;> decide, fun i => by cases i <;> decide⟩

theorem witness_ResetEventClearsTheBlock :
    (state (busy 1#4 aaab) [] [.reset, .engine]).nextAgent = .reset ∧
      (nextOr State.reset (step (state (busy 1#4 aaab) [] [.reset, .engine]))).nextAgent = .engine :=
  ⟨rfl, rfl⟩

theorem witness_StepKeepsTheInvariant :
    (state (busy 1#4 aaab) [] [.engine]).Inv ∧
      step (state (busy 1#4 aaab) [] [.engine]) =
        .next (nextOr State.reset (step (state (busy 1#4 aaab) [] [.engine]))) := ⟨aaab_inv, rfl⟩

theorem witness_MachineNeverStopsUnderTheInvariant : (state (busy 1#4 aaab) [] [.engine]).Inv :=
  aaab_inv

theorem witness_ReservedErrorCodesAreNeverWritten :
    step (state (busy 1#4 (block 8 1 0 0 [])) [] [.engine]) =
        .next (nextOr State.reset (step (state (busy 1#4 (block 8 1 0 0 [])) [] [.engine]))) ∧
      (nextOr State.reset (step (state (busy 1#4 (block 8 1 0 0 [])) [] [.engine]))).block.err ≠
        (busy 1#4 (block 8 1 0 0 [])).err := ⟨rfl, by decide⟩

theorem witness_DoneIsSetByCompletionsOnly :
    ((state (busy 1#4 aaab) [] [.engine]).nextAgent = .engine ∧ (busy 1#4 aaab).fsm = .busy ∧
      (nextOr State.reset (step (state (busy 1#4 aaab) [] [.engine]))).block.done ≠
        (busy 1#4 aaab).done) ∧
    ((state aaab [.wr32 0x00#18 0x5#32] [.host]).HostWrites .four Reg.cmd.offset 0x5#32 ∧
      aaab.fsm = .idle ∧ ∀ i, (0x5#32 : Word) ≠ encode i) ∧
    (state aaab [.wr32 0x00#18 0x2#32] [.host]).HostWrites .four Reg.cmd.offset (encode .rleDecode) ∧
    ((state aaab [.wr32 0x04#18 0x2#32] [.host]).HostWrites .four Reg.status.offset 0x2#32 ∧
      (0x2#32).getLsbD 1 = true) ∧
    (state aaab [] [.reset]).nextAgent = .reset :=
  ⟨⟨rfl, rfl, by decide⟩, ⟨writes32 .., rfl, no_instr (by decide)⟩, writes32 ..,
    ⟨writes32 .., by decide⟩, rfl⟩

theorem witness_WdropIsSetByDroppedWritesOnly :
    (state (busy 1#4 aaab) [] [.reset]).block.cfg.Legal ∧
    ((state (busy 1#4 aaab) [.wr32 0x10#18 9#32] [.host]).HostWrites .four 0x10#18 9#32 ∧
      (busy 1#4 aaab).Drops .four 0x10#18) ∧
    ((state (busy 1#4 aaab) [.wr8 0x10007#18 9#8] [.host]).HostWrites .one 0x10007#18
        ((9#8).setWidth 32) ∧
      (busy 1#4 aaab).Drops .one 0x10007#18) ∧
    ((state aaab [.wr32 0x04#18 0x4#32] [.host]).HostWrites .four Reg.status.offset 0x4#32 ∧
      (0x4#32).getLsbD 2 = true) ∧
    (nextOr State.reset (step (state (busy 1#4 aaab) [.wr32 0x10#18 9#32] [.host]))).block.wdrop ≠
      (busy 1#4 aaab).wdrop :=
  ⟨by decide, ⟨writes32 .., .inl ⟨rfl, .inLen, by decide, rfl⟩⟩,
    ⟨writes8 .., .inr ⟨.ibuf, 7, by decide, by decide, by decide⟩⟩, ⟨writes32 .., by decide⟩,
    by decide⟩

theorem witness_IrqFollowsEnableAndDone :
    ({ aaab with ie := true, done := true }.irq = true) ∧
    (({ aaab with done := true }.busWrite Reg.ctrl.offset .four 1#32).map Block.irq = some true) ∧
    (({ aaab with ie := true, done := true }.busWrite Reg.status.offset .four 2#32).map Block.irq =
      some false ∧ (2#32).getLsbD 1 = true) ∧
    (aaab.fsm = .idle ∧
      ({ aaab with ie := true, done := true }.busWrite Reg.cmd.offset .four
        (encode .vlqEncode)).map Block.irq = some false) ∧
    (state aaab [] [.reset]).nextAgent = .reset := by decide

theorem witness_HostTurnsWhileBusyKeepOperands :
    (busy 1#4 aaab).fsm = .busy ∧ (busy 1#4 aaab).done = false ∧
      (state (busy 1#4 aaab) [.wr32 0x10#18 9#32, .halt] [.host, .host, .engine]).schedule =
        List.replicate 2 .host ++ [.engine] := by decide

theorem witness_CompletionIsAFunctionOfTheIssuedState :
    (busy 1#4 aaab).fsm = .busy ∧ (busy 1#4 aaab).latchedOp = opOfInstr .rleEncode ∧
      (state (busy 1#4 aaab) [.wr32 0x10#18 9#32] [.host, .engine, .host]).schedule =
        List.replicate 1 .host ++ .engine :: [.host] ∧
      (state (busy 1#4 aaab) [] [.engine]).schedule = List.replicate 0 .host ++ .engine :: [] := by
  decide

theorem witness_CompletionIsAFunctionOfTheIssuedState_fair :
    ((state (busy 4#4 aaab)).block.fsm = .busy ∧
      (state (busy 4#4 aaab)).block.latchedOp = opOfInstr .vlqDecode ∧
      (state (busy 4#4 aaab)).schedule = []) ∧
    (state (busy 1#4 aaab) [] [.engine]).Inv := ⟨by decide, aaab_inv⟩

theorem witness_LatchedOpIsHiddenWhileIdle :
    aaab.fsm = .idle ∧
      step (state aaab [.wr32 0x00#18 0x1#32] [.host]) =
        .next (nextOr State.reset (step (state aaab [.wr32 0x00#18 0x1#32] [.host]))) ∧
      (nextOr State.reset (step (state aaab [.wr32 0x00#18 0x1#32] [.host]))).block.fsm = .busy :=
  ⟨rfl, rfl, by decide⟩

/-- A state whose host runs `st` with t0 = 7 and t1 = 9. -/
def withTemps (st : Stmt) : State :=
  { state aaab [st] [.host] with
      host := (((state aaab [st] [.host]).host.setTemp 0 7#32).setTemp 1 9#32) }

theorem witness_HostLocalStatements (st : Stmt) :
    (withTemps st).host.temp 0 = some 7#32 ∧ (withTemps st).host.temp 1 = some 9#32 ∧
      (withTemps st).RunsStatement st := ⟨rfl, rfl, rfl, rfl, rfl⟩

/-- SUB wraps below 0 (30_encoding R100), and a shift by 32 gives 0 (00_scope R8). -/
theorem test_host_arithmetic :
    answers (step (withTemps (.sub 2 0 1))) (fun t => t.host.temp 2 == some 0xFFFFFFFE#32) = true ∧
    answers (step (withTemps (.srli 2 0 32#32))) (fun t => t.host.temp 2 == some 0#32) = true ∧
    answers (step (withTemps (.bz 0 5))) (fun t => t.host.index == 1) = true ∧
    answers (step (withTemps (.bnz 0 5))) (fun t => t.host.index == 5) = true := by decide

theorem witness_HostBusStatements :
    ((state aaab [.wr32 0x10#18 9#32] [.host]).HostWrites .four 0x10#18 9#32 ∧
      aaab.busWrite 0x10#18 .four 9#32 = some { aaab with inLen := 9#32 }) ∧
    ((state aaab [.rd32 15 0x10000#18] [.host]).HostReads .four 15 0x10000#18 ∧
      aaab.busRead 1 0x10000#18 .four = some 0x42414141#32) :=
  ⟨⟨writes32 .., by decide⟩, reads32 .., by decide⟩

theorem witness_UnwrittenTemporaryFaultsTheHost :
    ((state aaab [.wrT .two 0x10000#18 4] [.host]).RunsStatement (.wrT .two 0x10000#18 4) ∧
      (state aaab [.wrT .two 0x10000#18 4] [.host]).host.temp 4 = none) ∧
    ((state aaab [.bz 15 0] [.host]).RunsStatement (.bz 15 0) ∧
      (state aaab [.bz 15 0] [.host]).host.temp 15 = none) :=
  ⟨⟨runs .., rfl⟩, runs .., rfl⟩

end Sys2Proof.Tests
end

section
/-! SUPPORT. The STATUS word and the read-only registers, and what each step of the machine does to the
block and to the two event bits of STATUS (10_state R24 to R26, R37, R38). -/

namespace Sys2Proof

/-! ### Decoding -/

/-- A command's own word decodes to it (30_encoding R91). -/
@[simp] theorem decode_encode (i : Instr) : decode (encode i) = .ok i := by cases i <;> rfl

/-- The decoder accepts only a command's own word (30_encoding R91, R93). -/
theorem eq_encode_of_decode {w : Word} {i : Instr} (h : decode w = .ok i) : w = encode i := by
  obtain ⟨hrsv, hop⟩ := decode_eq_ok h
  have fields : w = rsvField w ++ opField w := by
    simp only [rsvField, opField]
    rw [BitVec.extractLsb'_append_extractLsb'_eq_extractLsb' (by rfl)]
    simp
  rw [fields, hrsv, instrOfOp_eq_some hop, encode]

namespace Machine

/-! ### The STATUS word -/

theorem Block.busy_eq_true (b : Block) : b.busy = true ↔ b.fsm = .busy := by
  cases h : b.fsm <;> simp [Block.busy, h]

theorem Block.busy_eq_false (b : Block) : b.busy = false ↔ b.fsm = .idle := by
  cases h : b.fsm <;> simp [Block.busy, h]

/-- STATUS bit by bit (10_state R23); past ERR the bits of a 4-bit vector are 0. -/
theorem Block.statusWord_getLsbD (b : Block) (i : Nat) :
    b.statusWord.getLsbD i =
      if i = 0 then b.busy else if i = 1 then b.done else if i = 2 then b.wdrop
      else if i = 3 then b.overlong else b.err.getLsbD (i - 4) := by
  simp only [Block.statusWord, BitVec.getLsbD_append, BitVec.getLsbD_ofBool, BitVec.getLsbD_zero]
  grind

theorem Block.statusWord_getLsbD_add_four (b : Block) (i : Nat) :
    b.statusWord.getLsbD (4 + i) = b.err.getLsbD i := by
  rw [Block.statusWord_getLsbD, if_neg (by omega), if_neg (by omega), if_neg (by omega),
    if_neg (by omega), Nat.add_sub_cancel_left]

theorem Block.statusWord_err (b : Block) : b.statusWord.extractLsb' 4 4 = b.err := by
  ext i hi
  simp [Block.statusWord_getLsbD_add_four, hi]

theorem Block.statusWord_reserved (b : Block) : b.statusWord.extractLsb' 8 24 = 0#24 := by
  ext i hi
  rw [BitVec.getElem_extractLsb', show 8 + i = 4 + (4 + i) by omega,
    Block.statusWord_getLsbD_add_four, BitVec.getLsbD_of_ge _ _ (by omega), BitVec.getElem_zero]

theorem Block.writeStatus_eq (w : Word) (b : Block) :
    b.writeStatus w = { b with done := if w.getLsbD 1 then false else b.done
                               wdrop := if w.getLsbD 2 then false else b.wdrop } := by
  unfold Block.writeStatus
  cases w.getLsbD 1 <;> cases w.getLsbD 2 <;> simp

@[simp] theorem Block.reset_statusWord (cfg : Config) (epoch : Nat) :
    (Block.reset cfg epoch).statusWord = 0#32 := by
  simp [Block.statusWord, Block.reset, Block.busy]

/-- A write-one-to-clear bit changes only where the written bit is 1 (10_state R23). -/
theorem bit_of_write_one_clears {stored written : Bool} (h : (stored && !written) ≠ stored) :
    written = true := by
  cases written with
  | false => simp at h
  | true => rfl

/-! ### The registers the engine drops -/

/-- A busy block drops the write to a droppable register (20_memory R70). -/
theorem Block.writeReg_of_droppable {b : Block} {r : Reg} (v : Word) (hf : b.fsm = .busy)
    (hr : r.Droppable) : b.writeReg v r = b.drop := by
  rcases hr with rfl | rfl | rfl | rfl | rfl | rfl <;>
    simp [Block.writeReg, Block.writeCmd, Block.writeOperand, hf]

/-- A busy block drops every write that `Drops` names (20_memory R70). -/
theorem Block.busWrite_of_drops {b : Block} {n : Size} {a : Offset} (v : Word)
    (hl : b.cfg.Legal) (hf : b.fsm = .busy) (hd : b.Drops n a) :
    b.busWrite a n v = some b.drop := by
  rcases hd with ⟨rfl, r, hr, rfl⟩ | ⟨which, i, ha, hs, hi⟩
  · rw [Block.busWrite_offset, Block.writeReg_of_droppable v hf hr]
  · simp [Block.busWrite, Block.target_of_index ha hi hs hl, Block.writeBuffer, hf]

/-! ### What a host write does to DONE and WDROP -/

@[simp] theorem Block.storeBytes_done (which : Buffer) (i : Nat) (xs : List Byte) (b : Block) :
    (b.storeBytes which i xs).done = b.done := by cases which <;> rfl

@[simp] theorem Block.storeBytes_wdrop (which : Buffer) (i : Nat) (xs : List Byte) (b : Block) :
    (b.storeBytes which i xs).wdrop = b.wdrop := by cases which <;> rfl

/-- A host write that changes DONE is one to CMD at IDLE or an acknowledge (10_state R25). -/
theorem Block.busWrite_done_ne {b b' : Block} {a : Offset} {n : Size} {v : Word}
    (h : b.busWrite a n v = some b') (hne : b'.done ≠ b.done) :
    n = .four ∧ ((a = Reg.cmd.offset ∧ b.fsm = .idle) ∨
      (a = Reg.status.offset ∧ v.getLsbD 1 = true)) := by
  cases Block.busWrite_effect h with
  | acknowledged ha hn => exact ⟨hn, .inr ⟨ha, bit_of_write_one_clears hne⟩⟩
  | issued i hf ha hn => exact ⟨hn, .inl ⟨ha, hf⟩⟩
  | illegal e hf ha hn => exact ⟨hn, .inl ⟨ha, hf⟩⟩
  | _ => simp at hne

/-- A register write that sets WDROP is one to a droppable register (20_memory R70). -/
theorem Reg.droppable_of_sets_wdrop {b : Block} {r : Reg} {v : Word} (hclear : b.wdrop = false)
    (hset : (b.writeReg v r).wdrop = true) : r.Droppable := by
  cases r with
  | cmd | inBase | inLen | outBase | outCap | value => decide
  | _ => simp [Block.writeReg, hclear] at hset

/-- A host write that sets WDROP is one that `Drops` names (20_memory R70). -/
theorem Block.drops_of_sets_wdrop {b b' : Block} {a : Offset} {n : Size} {v : Word}
    (h : b.busWrite a n v = some b') (hclear : b.wdrop = false) (hset : b'.wdrop = true) :
    b.Drops n a := by
  unfold Block.busWrite at h
  split at h
  · cases h
  · next r hr =>
    cases h
    obtain ⟨rfl, rfl⟩ := Block.target_reg hr
    exact .inl ⟨rfl, r, Reg.droppable_of_sets_wdrop hclear hset, rfl⟩
  · next which i hi =>
    obtain ⟨ha, halign, hsize⟩ := Block.target_index hi
    exact .inr ⟨which, i, ha, hsize, halign⟩

/-- A host write that changes WDROP is a dropped one or an acknowledge (10_state R26). -/
theorem Block.busWrite_wdrop_ne {b b' : Block} {a : Offset} {n : Size} {v : Word}
    (h : b.busWrite a n v = some b') (hne : b'.wdrop ≠ b.wdrop) :
    (b.fsm = .busy ∧ b.Drops n a) ∨
      (n = .four ∧ a = Reg.status.offset ∧ v.getLsbD 2 = true) := by
  cases Block.busWrite_effect h with
  | dropped hf =>
    have hclear : b.wdrop = false := by simpa using hne.symm
    exact .inl ⟨hf, Block.drops_of_sets_wdrop h hclear rfl⟩
  | acknowledged ha hn => exact .inr ⟨hn, ha, bit_of_write_one_clears hne⟩
  | _ => simp at hne

/-! ### What a step does to the block -/

/-- No command's body changes WDROP (10_state R26). -/
@[simp] theorem commandBody_wdrop (i : Instr) (turn : Nat) (b : Block) :
    (commandBody i turn b).wdrop = b.wdrop := by
  have effect := commandBody_effect i turn b
  generalize commandBody i turn b = b' at effect ⊢
  cases effect <;> simp

/-- A step keeps the block, or is a host write, reset, or a completion (00_scope R11). -/
theorem step_block_effect {s t : State} (h : step s = .next t) :
    t.block = s.block ∨
      (∃ n a v, s.HostWrites n a v ∧ s.block.busWrite a n v = some t.block) ∨
      (s.nextAgent = .reset ∧ t.block = Block.reset s.block.cfg s.takeTurn.turn) ∨
      (s.nextAgent = .engine ∧ s.block.fsm = .busy ∧
        ∃ i, t.block = (commandBody i s.takeTurn.turn s.block).finish) := by
  rcases step_effect h with ⟨ha, rfl⟩ | ⟨ha, rfl⟩ | ⟨_, _, rfl⟩ | ⟨ha, hf, i, _, rfl⟩
  · rcases host_turn_effect ha with ⟨h', he⟩ | ⟨n, a, v, b, hw, hb, he⟩
    · exact .inl (by rw [he]; rfl)
    · exact .inr (.inl ⟨n, a, v, hw, by rw [he]; exact hb⟩)
  · exact .inr (.inr (.inl ⟨ha, rfl⟩))
  · exact .inl rfl
  · exact .inr (.inr (.inr ⟨ha, hf, i, rfl⟩))

/-- A turn of reset leaves the block of 10_state R45. -/
theorem step_block_of_reset {s t : State} (h : step s = .next t) (ha : s.nextAgent = .reset) :
    t.block = Block.reset s.block.cfg s.takeTurn.turn := by
  simp only [step, ha, State.agentStep, Host.Outcome.next.injEq] at h
  rw [← h]
  rfl

/-- A turn of the busy engine ends in the common end of a command (60_exceptions R210). -/
theorem step_block_of_engine {s t : State} (h : step s = .next t) (ha : s.nextAgent = .engine)
    (hf : s.block.fsm = .busy) :
    ∃ i, t.block = (commandBody i s.takeTurn.turn s.block).finish := by
  rcases step_effect h with ⟨ha', _⟩ | ⟨ha', _⟩ | ⟨_, hf', _⟩ | ⟨_, _, i, _, rfl⟩
  · simp [ha] at ha'
  · simp [ha] at ha'
  · simp [hf] at hf'
  · exact ⟨i, rfl⟩

/-- A host write that answers OK leaves the block the bus answers (20_memory R62). -/
theorem step_block_of_writes {s t : State} {n : Size} {a : Offset} {v : Word} {b : Block}
    (h : step s = .next t) (hw : s.HostWrites n a v) (hb : s.block.busWrite a n v = some b) :
    t.block = b := by
  rw [step_of_writes hw, Host.Outcome.next.injEq] at h
  simp [← h, State.hostWrite, hb]

/-- A host write to a register has the effect of the register. -/
theorem step_block_of_writes_reg {s t : State} {r : Reg} {v : Word} (h : step s = .next t)
    (hw : s.HostWrites .four r.offset v) : t.block = s.block.writeReg v r :=
  step_block_of_writes h hw (Block.busWrite_offset s.block r v)

/-! ### CMD written at IDLE -/

theorem Block.writeCmd_encode {b : Block} (i : Instr) (hf : b.fsm = .idle) :
    b.writeCmd (encode i) = b.issue (opField (encode i)) := by
  simp [Block.writeCmd, hf]

theorem Block.writeCmd_illegal {b : Block} {w : Word} (hf : b.fsm = .idle)
    (hw : ∀ i, w ≠ encode i) : b.writeCmd w = b.completeIllegal := by
  cases hd : decode w with
  | ok i => exact absurd (eq_encode_of_decode hd) (hw i)
  | error e => simp [Block.writeCmd, hf, hd]

/-! ### The statements -/

/-- Settles O5, by the STATUS word bit by bit and the write of its two event bits. -/
theorem statusReadsFieldsAndClearsOnOne : Obligations.StatusReadsFieldsAndClearsOnOne := by
  intro turn b
  refine ⟨⟨b.statusWord, Block.busRead_offset turn b .status, ?_, ?_, b.statusWord_getLsbD 1,
    b.statusWord_getLsbD 2, b.statusWord_getLsbD 3, b.statusWord_err, b.statusWord_reserved⟩, ?_,
    ?_⟩
  · rw [b.statusWord_getLsbD 0]
    exact b.busy_eq_true
  · rw [b.statusWord_getLsbD 0]
    exact b.busy_eq_false
  · intro w
    rw [← Block.writeStatus_eq]
    exact Block.busWrite_offset b .status w
  · rw [← Block.reset_statusWord b.cfg b.epoch]
    exact Block.busRead_offset turn _ .status

/-- Settles O8, by what the bus answers at a register's own offset; a legal size fits 32 bits. -/
theorem identificationRegistersAreConstant : Obligations.IdentificationRegistersAreConstant := by
  intro turn b v
  have size : ∀ n ≤ 65536, (BitVec.ofNat 32 n).toNat = n := fun n hn => by
    rw [BitVec.toNat_ofNat, Nat.mod_eq_of_lt (by omega)]
  exact ⟨Block.busRead_offset turn b .id, by decide, Block.busRead_offset turn b .version,
    fun hl => ⟨_, Block.busRead_offset turn b .ibufSizeReg, size _ hl.1.2⟩,
    fun hl => ⟨_, Block.busRead_offset turn b .obufSizeReg, size _ hl.2.2⟩,
    Block.busWrite_offset b .id v, Block.busWrite_offset b .version v,
    Block.busWrite_offset b .ibufSizeReg v, Block.busWrite_offset b .obufSizeReg v⟩

/-- Settles O52, by the block after each kind of step; of the host's writes, by `busWrite_done_ne`. -/
theorem doneIsSetByCompletionsOnly : Obligations.DoneIsSetByCompletionsOnly := by
  intro s t h
  refine ⟨fun ha hf => ?engine, fun w hw hf hi => ?illegal, fun i hw hf => ?issue,
    fun w hw hbit => ?acknowledge, fun ha => ?reset, fun hne => ?only⟩
  case engine =>
    obtain ⟨i, hb⟩ := step_block_of_engine h ha hf
    rw [hb, Block.finish_done]
  case illegal =>
    rw [step_block_of_writes_reg h hw, Block.writeReg, Block.writeCmd_illegal hf hi,
      Block.completeIllegal_done]
  case issue =>
    rw [step_block_of_writes_reg h hw, Block.writeReg, Block.writeCmd_encode i hf,
      Block.issue_done]
  case acknowledge =>
    rw [step_block_of_writes_reg h hw, Block.writeReg, Block.writeStatus_done, hbit]
    simp
  case reset => rw [step_block_of_reset h ha, Block.reset]
  case only =>
    rcases step_block_effect h with hb | ⟨n, a, v, hw, hb⟩ | ⟨ha, _⟩ | ⟨ha, hf, _⟩
    · exact absurd (congrArg Block.done hb) hne
    · obtain ⟨rfl, ⟨rfl, hf⟩ | ⟨rfl, hbit⟩⟩ := Block.busWrite_done_ne hb hne
      · exact .inr (.inl ⟨v, hw, hf⟩)
      · exact .inr (.inr (.inl ⟨v, hw, hbit⟩))
    · exact .inr (.inr (.inr ha))
    · exact .inl ⟨ha, hf⟩

/-- Settles O53, by the block after each kind of step; of the host's writes, by `busWrite_wdrop_ne`. -/
theorem wdropIsSetByDroppedWritesOnly : Obligations.WdropIsSetByDroppedWritesOnly := by
  intro s t hl h
  refine ⟨fun n a v hw hf hd => ?drop, fun w hw hbit => ?acknowledge, fun ha => ?reset,
    fun hne => ?only⟩
  case drop =>
    rw [step_block_of_writes h hw (Block.busWrite_of_drops v hl hf hd), Block.drop_wdrop]
  case acknowledge =>
    rw [step_block_of_writes_reg h hw, Block.writeReg, Block.writeStatus_wdrop, hbit]
    simp
  case reset => rw [step_block_of_reset h ha, Block.reset]
  case only =>
    rcases step_block_effect h with hb | ⟨n, a, v, hw, hb⟩ | ⟨ha, _⟩ | ⟨_, _, i, hb⟩
    · exact absurd (congrArg Block.wdrop hb) hne
    · rcases Block.busWrite_wdrop_ne hb hne with ⟨hf, hd⟩ | ⟨rfl, rfl, hbit⟩
      · exact .inl ⟨n, a, v, hw, hf, hd⟩
      · exact .inr (.inl ⟨v, hw, hbit⟩)
    · exact .inr (.inr ha)
    · exact absurd (by rw [hb, Block.finish_wdrop, commandBody_wdrop]) hne

end Machine

end Sys2Proof
end

section
/-! SUPPORT. The address map and the byte order of 20_memory: which transactions are legal (R63 to R65),
what a legal one reads and stores (R67, R68), and the table of write effects (R70). -/

namespace Sys2Proof.Machine

/-! ### The address map, region by region (20_memory R61) -/

theorem Size.bytes_eq_four (n : Size) : n.bytes = 4 ↔ n = .four := by
  cases n <;> simp [Size.bytes]

theorem Reg.offset_in_page (r : Reg) :
    r.offset.toNat < 0x10000 ∧ r.offset.toNat % 4 = 0 ∧ r.offset.toNat ≤ 0x34 := by
  cases r <;> decide

/-- The registers sit at every fourth offset from 0x00 to 0x34 (10_state R21). -/
theorem Reg.at_isSome_iff (a : Offset) :
    (Reg.at a).isSome = true ↔ a.toNat % 4 = 0 ∧ a.toNat ≤ 0x34 := by
  constructor
  · intro h
    obtain ⟨r, hr⟩ := Option.isSome_iff_exists.mp h
    rw [Reg.at_eq_some hr]
    exact r.offset_in_page.2
  · rintro ⟨haligned, hle⟩
    have fourth : ∀ k < 14, (Reg.at (BitVec.ofNat 18 (4 * k))).isSome = true := by decide
    have ha : a = BitVec.ofNat 18 (4 * (a.toNat / 4)) := by
      rw [Nat.mul_div_cancel' (Nat.dvd_of_mod_eq_zero haligned), BitVec.ofNat_toNat,
        BitVec.setWidth_eq]
    rw [ha]
    exact fourth _ (by omega)

theorem Block.target_of_register_page {b : Block} {a : Offset} {n : Size} (h : a.toNat < 0x10000) :
    b.target a n = if n = .four ∧ a.toNat % 4 = 0 then (Reg.at a).map .reg else none := by
  rw [Block.target, if_pos h]

theorem Block.target_of_window {b : Block} {which : Buffer} {a : Offset} {n : Size}
    (hlo : windowBase which ≤ a.toNat) (hhi : a.toNat < windowBase which + 0x10000) :
    b.target a n = b.bufferTarget which (windowBase which) a n := by
  cases which with
  | ibuf =>
    simp only [windowBase] at hlo hhi
    rw [Block.target, if_neg (by omega), if_pos (by omega), windowBase]
  | obuf =>
    simp only [windowBase] at hlo hhi
    rw [Block.target, if_neg (by omega), if_neg (by omega), if_pos (by omega), windowBase]

theorem Block.target_of_unmapped {b : Block} {a : Offset} {n : Size} (h : 0x30000 ≤ a.toNat) :
    b.target a n = none := by
  rw [Block.target, if_neg (by omega), if_neg (by omega), if_neg (by omega)]

/-! ### Legality -/

/-- Rule R63 of 20_memory. -/
theorem Block.target_isSome_register_page {b : Block} {a : Offset} {n : Size}
    (h : a.toNat < 0x10000) :
    (b.target a n).isSome = true ↔ (n.bytes = 4 ∧ a.toNat % 4 = 0) ∧ a.toNat ≤ 0x34 := by
  rw [Block.target_of_register_page h, Size.bytes_eq_four]
  split
  · next hc => simp [Reg.at_isSome_iff, hc]
  · next hc => simp [hc]

/-- Rule R64 of 20_memory. -/
theorem Block.target_isSome_window {b : Block} {which : Buffer} {a : Offset} {n : Size}
    (hlo : windowBase which ≤ a.toNat) (hhi : a.toNat < windowBase which + 0x10000) :
    (b.target a n).isSome = true ↔
      a.toNat % n.bytes = 0 ∧ a.toNat - windowBase which + n.bytes ≤ b.bufSize which := by
  rw [Block.target_of_window hlo hhi, Block.bufferTarget]
  split
  · next hc => simp [hc]
  · next hc => simp [hc]

theorem Block.target_none_past_buffer {b : Block} {which : Buffer} {a : Offset} {n : Size}
    (hlo : windowBase which ≤ a.toNat) (hhi : a.toNat < windowBase which + 0x10000)
    (hpast : windowBase which + b.bufSize which ≤ a.toNat) : b.target a n = none := by
  rw [← Option.not_isSome_iff_eq_none, Block.target_isSome_window hlo hhi]
  have := n.bytes_cases
  omega

theorem Block.target_none_of_no_register {b : Block} {a : Offset} {n : Size}
    (h : a.toNat < 0x10000) (hr : ∀ r : Reg, a ≠ r.offset) : b.target a n = none := by
  have hat : Reg.at a = none :=
    Option.eq_none_iff_forall_ne_some.mpr fun r hat => hr r (Reg.at_eq_some hat)
  rw [Block.target_of_register_page h, hat, Option.map_none, ite_self]

/-- An access to a register of another size than 4 is illegal (20_memory R63). -/
theorem Block.target_offset_of_ne_four (b : Block) (r : Reg) {n : Size} (hn : n ≠ .four) :
    b.target r.offset n = none := by
  rw [Block.target_of_register_page r.offset_in_page.1, if_neg fun hc => hn hc.1]

theorem Block.busRead_of_target_none (turn : Nat) {b : Block} {a : Offset} {n : Size}
    (h : b.target a n = none) : b.busRead turn a n = none := by
  rw [Block.busRead, h]

theorem Block.busWrite_of_target_none (v : Word) {b : Block} {a : Offset} {n : Size}
    (h : b.target a n = none) : b.busWrite a n v = none := by
  rw [Block.busWrite, h]

/-! ### Little-endian reads (20_memory R67) -/

theorem leNat_toNat {xs : List Byte} (h : xs.length ≤ 4) :
    (BitVec.ofNat 32 (leNat xs)).toNat = leNat xs := by
  rw [BitVec.toNat_ofNat]
  exact Nat.mod_eq_of_lt ((leNat_lt xs).trans_le (Nat.pow_le_pow_right (by decide) (by omega)))

/-- The bytes of the word read from at most four bytes are those bytes. -/
theorem extractLsb'_leNat {xs : List Byte} (h : xs.length ≤ 4) {k : Nat} (hk : k < xs.length) :
    (BitVec.ofNat 32 (leNat xs)).extractLsb' (8 * k) 8 = xs[k] := by
  apply BitVec.eq_of_toNat_eq
  rw [BitVec.extractLsb'_toNat, leNat_toNat h, Nat.shiftRight_eq_div_pow, leNat_byte xs k hk]

theorem Size.bytes_le_four (n : Size) : n.bytes ≤ 4 := by cases n <;> decide

theorem Block.readBytes_getElem (turn : Nat) (b : Block) (which : Buffer) (i n k : Nat)
    (h : k < (b.readBytes turn which i n).length) :
    (b.readBytes turn which i n)[k] = b.readByte turn which (i + k) := by
  simp [Block.readBytes]

theorem Block.readByte_of_idle {b : Block} (hf : b.fsm = .idle) (turn : Nat) (which : Buffer)
    (i : Nat) : b.readByte turn which i = b.byte which i := by
  simp [Block.readByte, hf]

section
variable {b : Block} {which : Buffer} {a : Offset} {i : Nat} {n : Size}

theorem Block.busRead_of_index (turn : Nat) (ha : a.toNat = windowBase which + i)
    (hi : i % n.bytes = 0) (hs : i + n.bytes ≤ b.bufSize which) (hl : b.cfg.Legal) :
    b.busRead turn a n = some (BitVec.ofNat 32 (leNat (b.readBytes turn which i n.bytes))) := by
  rw [Block.busRead, Block.target_of_index ha hi hs hl]

/-- A 1-byte read answers the byte, zero-extended (20_memory R67). -/
theorem Block.busRead_one (turn : Nat) (ha : a.toNat = windowBase which + i)
    (hs : i + 1 ≤ b.bufSize which) (hl : b.cfg.Legal) :
    b.busRead turn a .one = some ((b.readByte turn which i).setWidth 32) := by
  rw [Block.busRead_of_index (n := .one) turn ha (Nat.mod_one i) hs hl]
  simp [Size.bytes, Block.readBytes, leNat, BitVec.ofNat_toNat]

/-! ### Little-endian writes (20_memory R68) -/

theorem Block.busWrite_of_index (v : Word) (ha : a.toNat = windowBase which + i)
    (hi : i % n.bytes = 0) (hs : i + n.bytes ≤ b.bufSize which) (hl : b.cfg.Legal) :
    b.busWrite a n v = some (b.writeBuffer which i (leBytes n.bytes v)) := by
  rw [Block.busWrite, Block.target_of_index ha hi hs hl]

theorem Block.busWrite_of_index_busy (v : Word) (ha : a.toNat = windowBase which + i)
    (hi : i % n.bytes = 0) (hs : i + n.bytes ≤ b.bufSize which) (hl : b.cfg.Legal)
    (hf : b.fsm = .busy) : b.busWrite a n v = some b.drop :=
  Block.busWrite_of_drops v hl hf (.inr ⟨which, i, ha, hs, hi⟩)

theorem Block.busWrite_of_index_idle (v : Word) (ha : a.toNat = windowBase which + i)
    (hi : i % n.bytes = 0) (hs : i + n.bytes ≤ b.bufSize which) (hl : b.cfg.Legal)
    (hf : b.fsm = .idle) :
    b.busWrite a n v = some (b.storeBytes which i (leBytes n.bytes v)) := by
  rw [Block.busWrite_of_index v ha hi hs hl, Block.writeBuffer, hf]

end

@[simp] theorem Block.storeBytes_fsm (which : Buffer) (i : Nat) (xs : List Byte) (b : Block) :
    (b.storeBytes which i xs).fsm = b.fsm := by cases which <;> rfl

@[simp] theorem Block.storeBytes_cfg (which : Buffer) (i : Nat) (xs : List Byte) (b : Block) :
    (b.storeBytes which i xs).cfg = b.cfg := by cases which <;> rfl

@[simp] theorem Block.storeBytes_bufSize (which which' : Buffer) (i : Nat) (xs : List Byte)
    (b : Block) : (b.storeBytes which i xs).bufSize which' = b.bufSize which' := by
  cases which' <;> simp [Block.bufSize]

/-- A store changes the buffers only. -/
theorem Block.storeBytes_frame (which : Buffer) (i : Nat) (xs : List Byte) (b : Block) :
    b.storeBytes which i xs =
      { b with ibuf := (b.storeBytes which i xs).ibuf, obuf := (b.storeBytes which i xs).obuf } := by
  cases which <;> rfl

/-- The offset after one inside a buffer window: nothing wraps, as a legal buffer ends inside its
window. -/
theorem windowBase_next {b : Block} {which : Buffer} {a : Offset} {i : Nat}
    (ha : a.toNat = windowBase which + i) (hs : i + 1 ≤ b.bufSize which) (hl : b.cfg.Legal) :
    (a + 1#18).toNat = windowBase which + (i + 1) := by
  obtain ⟨⟨_, hibuf⟩, ⟨_, hobuf⟩⟩ := hl
  rw [BitVec.toNat_add, show (1#18).toNat = 1 from rfl]
  cases which with
  | ibuf => simp only [windowBase, Block.bufSize] at ha hs ⊢; omega
  | obuf => simp only [windowBase, Block.bufSize] at ha hs ⊢; omega

/-! ### Writes to a register at FSM = IDLE (20_memory R70) -/

theorem Block.writeOperand_of_idle {b : Block} (hf : b.fsm = .idle) (update : Block → Block) :
    b.writeOperand update = update b := by
  rw [Block.writeOperand, hf]

theorem Block.writeReg_of_readOnly (b : Block) (v : Word) {r : Reg} (hr : r.ReadOnly) :
    b.writeReg v r = b := by
  rcases hr with rfl | rfl | rfl | rfl | rfl | rfl <;> rfl

@[simp] theorem opField_encode (i : Instr) : opField (encode i) = opOfInstr i := by cases i <;> rfl

/-! ### The statements -/

/-- Settles O9, by the legality of the register page, the same for reads and writes. -/
theorem registerPageLegality : Obligations.RegisterPageLegality := by
  intro turn b a n v h
  rw [Block.busRead_isSome, Block.busWrite_isSome]
  exact ⟨Block.target_isSome_register_page h, Block.target_isSome_register_page h⟩

/-- Settles O10, by the legality of a buffer window, the same for reads and writes. -/
theorem bufferWindowLegality : Obligations.BufferWindowLegality := by
  intro turn b a n v
  rw [Block.busRead_isSome, Block.busWrite_isSome]
  refine ⟨fun hlo hhi => ?ibuf, fun hlo hhi => ?obuf⟩
  case ibuf =>
    have legal := Block.target_isSome_window (b := b) (which := .ibuf) (n := n) hlo hhi
    exact ⟨legal, legal⟩
  case obuf =>
    have legal := Block.target_isSome_window (b := b) (which := .obuf) (n := n) hlo hhi
    exact ⟨legal, legal⟩

/-- Settles O11: nothing is reached at an offset of each of the three kinds. -/
theorem unmappedOffsetsAreIllegal : Obligations.UnmappedOffsetsAreIllegal := by
  intro turn b a n v h
  have unreached : b.target a n = none := by
    rcases h with h | ⟨hpage, hr⟩ | ⟨hpast, hlo, hhi⟩ | ⟨hpast, hlo, hhi⟩
    · exact Block.target_of_unmapped h
    · exact Block.target_none_of_no_register hpage hr
    · exact Block.target_none_past_buffer (which := .ibuf) hlo hhi hpast
    · exact Block.target_none_past_buffer (which := .obuf) hlo hhi hpast
  exact ⟨Block.busRead_of_target_none turn unreached, Block.busWrite_of_target_none v unreached⟩

/-- Settles O13, by the bytes of the little-endian sum and the read of each register at its offset. -/
theorem bufferReadsAreLittleEndian : Obligations.BufferReadsAreLittleEndian := by
  refine ⟨?buffer, fun turn b which i hf => Block.readByte_of_idle hf turn which i,
    Block.busRead_offset, ?registers,
    fun turn b r n hn => Block.busRead_of_target_none turn (b.target_offset_of_ne_four r hn)⟩
  case buffer =>
    intro turn b which a i n ha hi hs hl
    have hlen := Block.readBytes_length turn b which i n.bytes
    have hfour := hlen.trans_le n.bytes_le_four
    refine ⟨_, Block.busRead_of_index turn ha hi hs hl, ?_, fun k hk => ?_⟩
    · rw [leNat_toNat hfour]
      simpa [hlen] using leNat_lt (b.readBytes turn which i n.bytes)
    · rw [extractLsb'_leNat hfour (hk.trans_eq hlen.symm), Block.readBytes_getElem]
  case registers =>
    intro turn b
    refine ⟨Block.busRead_offset turn b .cmd, Block.busRead_offset turn b .inBase,
      Block.busRead_offset turn b .inLen, Block.busRead_offset turn b .outBase,
      Block.busRead_offset turn b .outCap, fun hf => ?_⟩
    have notBusy : ¬ b.fsm = .busy := by simp [hf]
    refine ⟨(Block.busRead_offset turn b .outLen).trans ?_,
      (Block.busRead_offset turn b .consumed).trans ?_,
      (Block.busRead_offset turn b .value).trans ?_⟩ <;>
      rw [Block.readReg, if_neg notBusy]

/-- Settles O14, by the store's bytes, its frame, and the read of one byte after it. -/
theorem bufferWritesStoreLittleEndian : Obligations.BufferWritesStoreLittleEndian := by
  intro turn b which a i n v ha hi hs hl
  refine ⟨Block.busWrite_of_index_busy v ha hi hs hl, fun hf =>
    ⟨_, Block.busWrite_of_index_idle v ha hi hs hl hf, Block.storeBytes_frame _ _ _ b,
      fun k hk => ?stored, fun which' j hj => ?outside, ?second⟩⟩
  case stored =>
    rw [Block.byte_storeBytes_inside _ _ _ _ _ (by simpa using hk), leBytes_getElem]
  case outside =>
    exact Block.byte_storeBytes_outside b which which' i j _ (by simpa using hj)
  case second =>
    rintro rfl
    simp only [Size.bytes] at hs ⊢
    rw [Block.busRead_one turn (windowBase_next ha (by omega) hl)
      (by rw [Block.storeBytes_bufSize]; omega) (by rw [Block.storeBytes_cfg]; exact hl),
      Block.readByte_of_idle (by rw [Block.storeBytes_fsm, hf]),
      Block.byte_storeBytes_inside _ _ _ _ _ (by simp), leBytes_getElem]

/-- Settles O16, row by row of the table: dropped, read-only, CMD, STATUS, CTRL, the operand registers
with VALUE, and the buffers. -/
theorem legalWritesFollowTheTable : Obligations.LegalWritesFollowTheTable := by
  intro b v
  refine ⟨fun r hr hf => ?dropped, fun r hr => ?readOnly, fun hf hv => ?illegal, ?issued,
    Block.busWrite_offset b .status v, Block.busWrite_offset b .ctrl v, fun hf => ?operands,
    fun which a i n hl ha hi hs => ⟨Block.busWrite_of_index_busy v ha hi hs hl,
      Block.busWrite_of_index_idle v ha hi hs hl⟩⟩
  case dropped =>
    rw [Block.busWrite_offset, Block.writeReg_of_droppable v hf hr, Block.drop]
  case readOnly => rw [Block.busWrite_offset, Block.writeReg_of_readOnly b v hr]
  case illegal =>
    rw [Block.busWrite_offset, Block.writeReg, Block.writeCmd_illegal hf hv]
    rfl
  case issued =>
    rintro hf i rfl
    rw [Block.busWrite_offset, Block.writeReg, Block.writeCmd_encode i hf, opField_encode,
      Block.issue]
  case operands =>
    refine ⟨?_, ?_, ?_, ?_, ?_⟩ <;>
      rw [Block.busWrite_offset, Block.writeReg, Block.writeOperand_of_idle hf]

end Sys2Proof.Machine
end

section
/-! SUPPORT. The words of the commands (30_encoding R91), and what a host write to CMD does at each FSM
and word (R92). -/

namespace Sys2Proof

/-! ### Which words decode -/

/-- The decoder and the encoder agree, both ways (30_encoding R91). -/
theorem decode_eq_ok_iff (w : Word) (i : Instr) : decode w = .ok i ↔ w = encode i := by
  constructor
  · exact eq_encode_of_decode
  · rintro rfl
    exact decode_encode i

/-- A word is a command's exactly when RSV is 0 and the opcode map is defined on OP
(30_encoding R91, R93). -/
theorem decodes_iff_fields (w : Word) :
    (∃ i, decode w = .ok i) ↔ rsvField w = 0#28 ∧ (instrOfOp (opField w)).isSome = true := by
  constructor
  · rintro ⟨i, hi⟩
    obtain ⟨hrsv, hop⟩ := decode_eq_ok hi
    exact ⟨hrsv, Option.isSome_of_eq_some hop⟩
  · rintro ⟨hrsv, hop⟩
    obtain ⟨i, hi⟩ := Option.isSome_iff_exists.mp hop
    exact ⟨i, by simp [decode, hrsv, hi]⟩

/-- The legal OP values as a range and as a list (30_encoding R91). -/
theorem op_mem_legal_iff (op : BitVec 4) :
    op ∈ [0x1#4, 0x2#4, 0x3#4, 0x4#4] ↔ (instrOfOp op).isSome = true := by
  revert op; decide

/-- `decodes_iff_fields` in the form of 30_encoding R92, with the four OP values listed. -/
theorem decodes_iff_op_mem (w : Word) :
    (∃ i, decode w = .ok i) ↔
      w.extractLsb' 4 28 = 0#28 ∧ w.extractLsb' 0 4 ∈ [0x1#4, 0x2#4, 0x3#4, 0x4#4] := by
  rw [decodes_iff_fields, ← op_mem_legal_iff, rsvField, opField]

/-- Settles O1, by the agreement of decoder and encoder and the legality of the two fields. -/
theorem decodeEncodeAgreeOnEveryWord : Obligations.DecodeEncodeAgreeOnEveryWord := by
  refine ⟨⟨rfl, rfl, rfl, rfl⟩, decode_eq_ok_iff, fun w => ?fields, fun i => ?latched⟩
  case fields => rw [decodes_iff_fields, instrOfOp_isSome, rsvField, opField]
  case latched => rw [Machine.opField_encode, instrOfOp_opOfInstr]

namespace Machine

/-! ### CMD by FSM and word -/

/-- A command's word written to CMD at IDLE is issued with its own OP field (30_encoding R92). -/
theorem Block.writeCmd_of_decodes {b : Block} {w : Word} (hf : b.fsm = .idle)
    (hw : ∃ i, decode w = .ok i) : b.writeCmd w = b.issue (opField w) := by
  obtain ⟨i, hi⟩ := hw
  rw [eq_encode_of_decode hi, Block.writeCmd_encode i hf]

/-- Any other word written to CMD at IDLE completes as illegal (30_encoding R92). -/
theorem Block.writeCmd_of_not_decodes {b : Block} {w : Word} (hf : b.fsm = .idle)
    (hw : ¬ ∃ i, decode w = .ok i) : b.writeCmd w = b.completeIllegal :=
  Block.writeCmd_illegal hf fun i hi => hw ⟨i, (decode_eq_ok_iff w i).mpr hi⟩

/-- No write at BUSY changes anything but DONE, WDROP and IE: of the effects a write can have, only the
drop, the acknowledge, the CTRL write and the ignored write do not need IDLE (20_memory R70). -/
theorem Block.busWrite_busy_frame {b b' : Block} {a : Offset} {n : Size} {v : Word}
    (hf : b.fsm = .busy) (h : b.busWrite a n v = some b') :
    b' = { b with done := b'.done, wdrop := b'.wdrop, ie := b'.ie } := by
  have notIdle : b.fsm ≠ .idle := by simp [hf]
  cases Block.busWrite_effect h with
  | dropped | acknowledged | controlled | ignored => rfl
  | issued _ hidle | illegal _ hidle | inBase hidle | inLen hidle | outBase hidle | outCap hidle
  | value hidle | stored _ _ _ hidle => exact absurd hidle notIdle

/-- Settles O3, by the three branches of a CMD write and the frame of a write at BUSY. -/
theorem cmdWriteIssuesDropsOrCompletes : Obligations.CmdWriteIssuesDropsOrCompletes := by
  refine ⟨fun b w => ?branches, fun b b' a n v => Block.busWrite_busy_frame⟩
  rw [Block.busWrite_offset, ← decodes_iff_op_mem]
  refine ⟨fun hf => ?dropped, fun hf hw => ?issued, fun hf hw => ?illegal⟩
  case dropped => rw [Block.writeReg_of_droppable w hf (.inl rfl), Block.drop]
  case issued => rw [Block.writeReg, Block.writeCmd_of_decodes hf hw, Block.issue, opField]
  case illegal =>
    rw [Block.writeReg, Block.writeCmd_of_not_decodes hf hw, Block.completeIllegal, ErrCode.code]

end Machine

end Sys2Proof
end

section
/-! SUPPORT. The RLE functions of 40_rle: the encoder's scan as an induction over the pairs it makes
(R120, R121), the decoder's expansion pair by pair (R122, R123), and the round trip. -/

namespace Sys2Proof.Machine

/-! ### Maximal runs -/

theorem runLength_eq_takeWhile (x : Byte) (xs : List Byte) :
    runLength x xs = (xs.takeWhile (· == x)).length := by
  induction xs with
  | nil => rfl
  | cons y ys ih =>
    by_cases hy : y = x
    · simp [runLength, hy, ih]
    · simp [runLength, hy]

theorem runLength_of_head_ne {x : Byte} {xs : List Byte} (h : xs.head? ≠ some x) :
    runLength x xs = 0 := by
  cases xs with
  | nil => rfl
  | cons y ys =>
    have hy : y ≠ x := by simpa using h
    simp [runLength, hy]

@[simp] theorem runLength_replicate_append (n : Nat) (x : Byte) (rest : List Byte) :
    runLength x (List.replicate n x ++ rest) = n + runLength x rest := by
  induction n with
  | zero => simp
  | succ n ih =>
    simp only [List.replicate_succ, List.cons_append, runLength, if_true, ih]
    omega

/-- A sequence begins with some copies of `x`, none perhaps, and then goes on with another byte or
ends. -/
theorem exists_eq_run_append (x : Byte) (xs : List Byte) :
    ∃ n rest, xs = List.replicate n x ++ rest ∧ rest.head? ≠ some x := by
  induction xs with
  | nil => exact ⟨0, [], rfl, by simp⟩
  | cons y ys ih =>
    by_cases hy : y = x
    · obtain ⟨n, rest, hys, hrest⟩ := ih
      exact ⟨n + 1, rest, by rw [hys, hy, List.replicate_succ, List.cons_append], hrest⟩
    · exact ⟨0, y :: ys, rfl, by simpa using hy⟩

/-- Induction over the maximal runs of a sequence. -/
theorem run_induction {motive : List Byte → Prop} (nil : motive [])
    (run : ∀ (n : Nat) (x : Byte) (rest : List Byte), rest.head? ≠ some x → motive rest →
      motive (List.replicate (n + 1) x ++ rest)) (xs : List Byte) : motive xs := by
  match xs with
  | [] => exact nil
  | x :: ys =>
    obtain ⟨n, rest, hys, hrest⟩ := exists_eq_run_append x ys
    have shorter : rest.length ≤ ys.length := by simp [hys]
    have hxs : x :: ys = List.replicate (n + 1) x ++ rest := by
      rw [hys, List.replicate_succ, List.cons_append]
    rw [hxs]
    exact run n x rest hrest (run_induction nil run rest)
termination_by xs.length
decreasing_by simp only [List.length_cons]; omega

/-! ### The pairs of the encoder's scan (40_rle R120) -/

/-- `c` copies of `x` before `rest` are what one pair of the encoder stands for: a maximal run of at
most 255 bytes, or the first 255 bytes of a run (40_rle R120). -/
structure OnePair (c : Nat) (x : Byte) (rest : List Byte) : Prop where
  pos : 1 ≤ c
  le : c ≤ 255
  clamped_or_maximal : c = 255 ∨ rest.head? ≠ some x

theorem OnePair.toNat_count {c : Nat} {x : Byte} {rest : List Byte} (h : OnePair c x rest) :
    (BitVec.ofNat 8 c).toNat = c := by
  have := h.le
  rw [BitVec.toNat_ofNat]
  omega

theorem OnePair.rleCount_eq {c : Nat} {x : Byte} {rest : List Byte} (h : OnePair (c + 1) x rest) :
    rleCount x (List.replicate c x ++ rest) = c + 1 := by
  rw [rleCount, runLength_replicate_append, Config.rleMaxRun]
  obtain ⟨-, hle, hclamped | hmaximal⟩ := h
  · omega
  · rw [runLength_of_head_ne hmaximal]
    omega

/-- The encoder turns the bytes of one pair into the pair and goes on behind them (40_rle R120). -/
theorem OnePair.rleEncode_eq {c : Nat} {x : Byte} {rest : List Byte} (h : OnePair c x rest) :
    rleEncode (List.replicate c x ++ rest) = BitVec.ofNat 8 c :: x :: rleEncode rest := by
  obtain ⟨n, rfl⟩ : ∃ n, c = n + 1 := ⟨c - 1, by have := h.pos; omega⟩
  have behind : (List.replicate (n + 1) x ++ rest).drop (n + 1) = rest := by simp
  rw [List.replicate_succ, List.cons_append, rleEncode_cons, h.rleCount_eq, ← List.cons_append,
    ← List.replicate_succ, behind]

/-- A run of more than 255 bytes begins with the bytes of one full pair. -/
theorem onePair_full (n : Nat) (x : Byte) (rest : List Byte) :
    OnePair 255 x (List.replicate n x ++ rest) :=
  ⟨by omega, by omega, .inl rfl⟩

theorem replicate_full_append (n : Nat) (x : Byte) (rest : List Byte) :
    List.replicate (n + 255) x ++ rest =
      List.replicate 255 x ++ (List.replicate n x ++ rest) := by
  rw [← List.append_assoc, List.replicate_append_replicate, Nat.add_comm]

/-- Induction over the pairs the encoder makes: each maximal run, 255 bytes at a time. -/
theorem pair_induction {motive : List Byte → Prop} (nil : motive [])
    (pair : ∀ (c : Nat) (x : Byte) (rest : List Byte), OnePair c x rest → motive rest →
      motive (List.replicate c x ++ rest)) (xs : List Byte) : motive xs := by
  induction xs using run_induction with
  | nil => exact nil
  | run n x rest hmaximal ih =>
    have split (m : Nat) : motive (List.replicate m x ++ rest) := by
      induction m using Nat.strong_induction_on with
      | h m shorter =>
        obtain rfl | hpos := Nat.eq_zero_or_pos m
        · exact ih
        · obtain hgt | hle := Nat.lt_or_ge 255 m
          · obtain ⟨k, rfl⟩ : ∃ k, m = k + 255 := ⟨m - 255, by omega⟩
            rw [replicate_full_append]
            exact pair 255 x _ (onePair_full k x rest) (shorter k (by omega))
          · exact pair m x rest ⟨hpos, hle, .inr hmaximal⟩ ih
    exact split (n + 1)

/-- A maximal run of any length: its full pairs, then one for the remainder (40_rle R120). -/
theorem rleEncode_run_append (n : Nat) {x : Byte} {rest : List Byte} (h : rest.head? ≠ some x) :
    rleEncode (List.replicate n x ++ rest) =
      (List.replicate (n / 255) [0xFF#8, x]).flatten ++
        (if n % 255 = 0 then [] else [BitVec.ofNat 8 (n % 255), x]) ++ rleEncode rest := by
  induction n using Nat.strong_induction_on with
  | h n ih =>
    obtain hlt | hge := Nat.lt_or_ge n 255
    · rw [Nat.div_eq_of_lt hlt, Nat.mod_eq_of_lt hlt]
      obtain rfl | hpos := Nat.eq_zero_or_pos n
      · simp
      · rw [OnePair.rleEncode_eq ⟨hpos, by omega, .inr h⟩, if_neg (by omega)]
        rfl
    · obtain ⟨m, rfl⟩ : ∃ m, n = m + 255 := ⟨n - 255, by omega⟩
      rw [replicate_full_append, (onePair_full m x rest).rleEncode_eq, ih m (by omega),
        Nat.add_div_right m (by omega), Nat.add_mod_right, List.replicate_succ, List.flatten_cons]
      rfl

/-! ### The encoder's output (40_rle R121) -/

theorem rleEncode_length_even (xs : List Byte) : (rleEncode xs).length % 2 = 0 := by
  induction xs using pair_induction with
  | nil => rfl
  | pair c x rest h ih =>
    rw [h.rleEncode_eq, List.length_cons, List.length_cons]
    omega

theorem rleEncode_count_range {xs : List Byte} {j : Nat} (hj : 2 * j < (rleEncode xs).length) :
    1 ≤ ((rleEncode xs).getD (2 * j) 0).toNat ∧ ((rleEncode xs).getD (2 * j) 0).toNat ≤ 255 := by
  induction xs using pair_induction generalizing j with
  | nil => simp at hj
  | pair c x rest h ih =>
    rw [h.rleEncode_eq] at hj ⊢
    cases j with
    | zero =>
      rw [Nat.mul_zero, List.getD_cons_zero, h.toNat_count]
      exact ⟨h.pos, h.le⟩
    | succ j =>
      simp only [List.length_cons, Nat.mul_add, List.getD_cons_succ] at hj ⊢
      exact ih (by omega)

/-- The first pair's value is the first byte. -/
theorem head?_eq_of_rleEncode_getD_one {xs : List Byte} (h : 1 < (rleEncode xs).length) :
    xs.head? = some ((rleEncode xs).getD 1 0) := by
  cases xs with
  | nil => simp at h
  | cons x xs => rw [rleEncode_cons]; rfl

/-- Adjacent pairs have one value only inside a run of more than 255 bytes (40_rle R121 (d)). -/
theorem rleEncode_count_of_equal_values {xs : List Byte} {j : Nat}
    (hj : 2 * j + 3 < (rleEncode xs).length)
    (heq : (rleEncode xs).getD (2 * j + 1) 0 = (rleEncode xs).getD (2 * j + 3) 0) :
    (rleEncode xs).getD (2 * j) 0 = 0xFF#8 := by
  induction xs using pair_induction generalizing j with
  | nil => simp at hj
  | pair c x rest h ih =>
    rw [h.rleEncode_eq] at hj heq ⊢
    cases j with
    | zero =>
      simp only [List.length_cons, Nat.mul_zero, Nat.zero_add, List.getD_cons_succ,
        List.getD_cons_zero] at hj heq ⊢
      have next : rest.head? = some x := by
        rw [heq]
        exact head?_eq_of_rleEncode_getD_one (by omega)
      rw [h.clamped_or_maximal.resolve_right (not_not_intro next)]
    | succ j =>
      simp only [List.length_cons, Nat.mul_add, Nat.add_right_comm _ 2, List.getD_cons_succ]
        at hj heq ⊢
      exact ih (by omega) heq

/-- The maximal runs of a sequence that begins with one. -/
theorem splitBy_run_append (n : Nat) {x : Byte} {rest : List Byte} (h : rest.head? ≠ some x) :
    (List.replicate (n + 1) x ++ rest).splitBy (· == ·) =
      List.replicate (n + 1) x :: rest.splitBy (· == ·) := by
  have ends : ∀ a ∈ (List.replicate (n + 1) x).getLast?, ∀ b ∈ rest.head?, (a == b) = false := by
    intro a ha b hb
    obtain rfl : x = a := by simpa [List.getLast?_replicate] using ha
    rw [beq_eq_false_iff_ne]
    rintro rfl
    exact h hb
  have single : (List.replicate (n + 1) x).splitBy (· == ·) = [List.replicate (n + 1) x] :=
    List.splitBy_of_isChain (by simp) (List.isChain_replicate_of_rel _ (by simp))
  rw [List.splitBy_append ends, single, List.singleton_append]

/-- A maximal run of `r` bytes takes `ceil (r / 255)` pairs (40_rle R121 (e)). -/
theorem rleEncode_length (xs : List Byte) :
    (rleEncode xs).length =
      2 * ((xs.splitBy (· == ·)).map fun run => (run.length + 254) / 255).sum := by
  induction xs using run_induction with
  | nil => rfl
  | run n x rest h ih =>
    have full (k : Nat) : (List.replicate k [0xFF#8, x]).flatten.length = 2 * k := by
      simp [Nat.mul_comm]
    rw [rleEncode_run_append _ h, splitBy_run_append n h, List.map_cons, List.sum_cons,
      List.length_replicate, Nat.mul_add, ← ih, List.length_append, List.length_append, full]
    split
    · rw [List.length_nil]
      omega
    · simp only [List.length_cons, List.length_nil]
      omega

/-- The encoding at most doubles the length (40_rle R121 (f)). -/
theorem rleEncode_length_le (xs : List Byte) : (rleEncode xs).length ≤ 2 * xs.length := by
  induction xs using pair_induction with
  | nil => simp
  | pair c x rest h ih =>
    have := h.pos
    simp only [h.rleEncode_eq, List.length_cons, List.length_append, List.length_replicate]
    omega

/-- It doubles the length exactly where every pair is for one byte (40_rle R121 (f)). -/
theorem rleEncode_length_eq_iff (xs : List Byte) :
    (rleEncode xs).length = 2 * xs.length ↔ xs.IsChain (· ≠ ·) := by
  induction xs using pair_induction with
  | nil => simp
  | pair c x rest h ih =>
    have hle := rleEncode_length_le rest
    rw [h.rleEncode_eq]
    match c, h with
    | 0, h => exact absurd h.pos (by omega)
    | 1, h =>
      have differs : ∀ y ∈ rest.head?, x ≠ y := by
        rintro y hy rfl
        exact h.clamped_or_maximal.resolve_left (by omega) hy
      simp only [List.replicate_one, List.singleton_append, List.length_cons, List.isChain_cons,
        ← ih]
      constructor
      · intro hlen
        exact ⟨differs, by omega⟩
      · rintro ⟨-, hlen⟩
        omega
    | c + 2, h =>
      simp only [List.replicate_succ, List.cons_append, List.isChain_cons_cons, ne_eq,
        not_true_eq_false, false_and, iff_false, List.length_cons, List.length_append,
        List.length_replicate]
      omega

/-! ### The decoder's expansion (40_rle R122, R123) -/

theorem rleDecode_of_odd {y : List Byte} (h : y.length % 2 = 1) :
    rleDecode y = .error .malformedData := if_pos h

theorem rleDecode_of_even {y : List Byte} (h : y.length % 2 = 0) :
    rleDecode y = .ok (expandPairs y) := if_neg (by omega)

theorem rleDecode_eq_ok {y x : List Byte} (h : rleDecode y = .ok x) : x = expandPairs y := by
  unfold rleDecode at h
  split at h <;> cases h
  rfl

/-- What is too short for a pair: nothing, or one byte. -/
theorem length_le_one_of_no_pair {y : List Byte}
    (h : ∀ (c x : Byte) (rest : List Byte), y = c :: x :: rest → False) : y.length ≤ 1 := by
  match y, h with
  | [], _ => simp
  | [_], _ => simp
  | c :: x :: rest, h => exact (h c x rest rfl).elim

theorem expandPairs_of_length_le_one {y : List Byte} (h : y.length ≤ 1) : expandPairs y = [] := by
  match y, h with
  | [], _ => rfl
  | [_], _ => rfl

/-- The expansion by the index of the pair (40_rle R122). -/
theorem expandPairs_eq_flatMap (y : List Byte) :
    expandPairs y = (List.range (y.length / 2)).flatMap
      fun j => List.replicate (y.getD (2 * j) 0).toNat (y.getD (2 * j + 1) 0) := by
  induction y using expandPairs.induct with
  | case1 c x rest ih =>
    rw [expandPairs_cons, ih, List.length_cons, List.length_cons,
      show (rest.length + 1 + 1) / 2 = rest.length / 2 + 1 by omega, List.range_succ_eq_map,
      List.flatMap_cons, List.flatMap_map]
    rfl
  | case2 y h =>
    have short := length_le_one_of_no_pair h
    rw [expandPairs_of_length_le_one short, Nat.div_eq_of_lt (by omega)]
    rfl

theorem expandPairs_length (y : List Byte) :
    (expandPairs y).length =
      ((List.range (y.length / 2)).map fun j => (y.getD (2 * j) 0).toNat).sum := by
  simp [expandPairs_eq_flatMap, List.length_flatMap]

theorem expandPairs_length_le (y : List Byte) :
    (expandPairs y).length ≤ 255 * y.length / 2 := by
  induction y using expandPairs.induct with
  | case1 c x rest ih =>
    have hc := c.isLt
    simp only [expandPairs_cons, List.length_append, List.length_replicate, List.length_cons]
    omega
  | case2 y h => simp [expandPairs_of_length_le_one (length_le_one_of_no_pair h)]

theorem expandPairs_append {y : List Byte} (z : List Byte) (h : y.length % 2 = 0) :
    expandPairs (y ++ z) = expandPairs y ++ expandPairs z := by
  induction y using expandPairs.induct with
  | case1 c x rest ih =>
    simp only [List.length_cons] at h
    simp only [List.cons_append, expandPairs_cons, ih (by omega), List.append_assoc]
  | case2 y hshort =>
    have := length_le_one_of_no_pair hshort
    obtain rfl : y = [] := List.eq_nil_of_length_eq_zero (by omega)
    rfl

/-- A pair of count 0 between pairs is no error and adds nothing (40_rle R123 (b)). -/
theorem rleDecode_insert_zero_pair {y : List Byte} (z : List Byte) (v : Byte)
    (h : y.length % 2 = 0) : rleDecode (y ++ [0#8, v] ++ z) = rleDecode (y ++ z) := by
  have hlen : (y ++ [0#8, v] ++ z).length = (y ++ z).length + 2 := by simp; omega
  obtain heven | hodd := Nat.mod_two_eq_zero_or_one (y ++ z).length
  · rw [rleDecode_of_even heven, rleDecode_of_even (by omega), List.append_assoc,
      expandPairs_append _ h, expandPairs_append _ h]
    rfl
  · rw [rleDecode_of_odd hodd, rleDecode_of_odd (by omega)]

theorem expandPairs_rleEncode (xs : List Byte) : expandPairs (rleEncode xs) = xs := by
  induction xs using pair_induction with
  | nil => rfl
  | pair c x rest h ih => rw [h.rleEncode_eq, expandPairs_cons, h.toNat_count, ih]

/-- The round trip of the two functions (40_rle R123 (e)). -/
theorem rleDecode_rleEncode (xs : List Byte) : rleDecode (rleEncode xs) = .ok xs := by
  rw [rleDecode_of_even (rleEncode_length_even xs), expandPairs_rleEncode]

/-! ### The statements about the functions -/

/-- Settles O18, by the encoder's equation and the pairs of a maximal run. -/
theorem rleEncodeScansMaximalRuns : Obligations.RleEncodeScansMaximalRuns := by
  refine ⟨rleEncode_nil, fun x xs => ?pair, fun n x rest h => rleEncode_run_append n h⟩
  case pair =>
    rw [← runLength_eq_takeWhile]
    exact rleEncode_cons x xs

/-- Settles O19, each clause by induction over the encoder's pairs or the input's maximal runs; the
counts sum to the length because the expansion gives the input back. -/
theorem rleEncodeProperties : Obligations.RleEncodeProperties := by
  intro x
  refine ⟨rleEncode_nil, rleEncode_length_even x, fun j => rleEncode_count_range,
    fun j => rleEncode_count_of_equal_values, rleEncode_length x,
    ⟨rleEncode_length_le x, ?doubles⟩, ?counts⟩
  case doubles => rw [rleEncode_length_eq_iff, List.isChain_iff_getElem]
  case counts => rw [← expandPairs_length, expandPairs_rleEncode]

/-- Settles O20, by the expansion by index. -/
theorem rleDecodeExpandsPairs : Obligations.RleDecodeExpandsPairs := by
  refine fun y => ⟨rleDecode_of_odd, fun h => ?_⟩
  rw [rleDecode_of_even h, expandPairs_eq_flatMap]

/-- Settles O21, the round trip by induction over the encoder's pairs. -/
theorem rleDecodeProperties : Obligations.RleDecodeProperties := by
  refine ⟨rfl, fun y z v => rleDecode_insert_zero_pair z v, rfl, fun y x h => ?_,
    rleDecode_rleEncode, by decide⟩
  rw [rleDecode_eq_ok h]
  exact ⟨expandPairs_length y, expandPairs_length_le y⟩

end Sys2Proof.Machine
end

section
/-! SUPPORT. RLE_ENCODE and RLE_DECODE where they complete well (40_rle R124 to R127): the completion
of a command that writes an output, and what its ERR = 0 says of the operands. -/

namespace Sys2Proof.Machine

/-! ### A completion with an output (30_encoding R96) -/

/-- An output that fits OUT_CAP fits the register OUT_LEN. -/
theorem toNat_outLen_of_fits {cap : Word} {n : Nat} (h : n ≤ cap.toNat) :
    (BitVec.ofNat 32 n).toNat = n := by
  have := cap.isLt
  rw [BitVec.toNat_ofNat]
  omega

theorem Block.emit_of_fits {b : Block} {y : List Byte} (h : y.length ≤ b.outCap.toNat) (turn : Nat)
    (consumed : Word) : b.emit turn y consumed =
      (b.storeBytes .obuf b.outBase.toNat y).succeed (BitVec.ofNat 32 y.length) consumed false :=
  if_neg (by omega)

theorem Block.fits_of_emit_err {turn : Nat} {b : Block} {y : List Byte} {consumed : Word}
    (h : (b.emit turn y consumed).err = 0#4) : y.length ≤ b.outCap.toNat := by
  unfold Block.emit at h
  split at h
  · cases h
  · omega

/-- A command whose body emits an output that fits completes with it. -/
theorem outputCompletion_of_emit {s : State} {body : Block → Block} {y : List Byte}
    {consumed : Word} (hbody : body s.block = s.block.emit s.turn y consumed)
    (hfits : y.length ≤ s.block.outCap.toNat) :
    OutputCompletion s (s.complete body) y consumed := by
  rw [Block.emit_of_fits hfits] at hbody
  refine ⟨?rest, ?outLen, fun k hk => ?written, fun j hj => ?outside, fun j => ?input⟩
  case rest => simp only [State.complete, hbody]; rfl
  case outLen =>
    rw [State.complete_block, hbody]
    exact toNat_outLen_of_fits hfits
  case written =>
    rw [State.complete_block, hbody]
    exact Block.byte_storeBytes_inside s.block .obuf _ k y hk
  case outside =>
    rw [State.complete_block, hbody]
    exact Block.byte_storeBytes_outside s.block .obuf .obuf _ j y (.inr hj)
  case input =>
    rw [State.complete_block, hbody]
    exact Block.byte_storeBytes_outside s.block .obuf .ibuf s.block.outBase.toNat j y
      (.inl (by decide))

theorem OutputCompletion.err {s t : State} {y : List Byte} {consumed : Word}
    (h : OutputCompletion s t y consumed) : t.block.err = 0#4 :=
  congrArg (fun t => t.block.err) h.rest

theorem OutputCompletion.done {s t : State} {y : List Byte} {consumed : Word}
    (h : OutputCompletion s t y consumed) : t.block.done = true :=
  congrArg (fun t => t.block.done) h.rest

/-! ### The two commands (40_rle R124, R125) -/

theorem rleEncode_outputCompletion {s : State} (hin : s.block.InWindowOk)
    (hout : s.block.OutWindowOk)
    (hfits : (rleEncode (s.block.inWindow s.turn)).length ≤ s.block.outCap.toNat) :
    OutputCompletion s (s.complete (rleEncodeBody s.turn))
      (rleEncode (s.block.inWindow s.turn)) s.block.inLen :=
  outputCompletion_of_emit (if_pos ⟨hin, hout⟩) hfits

theorem rleDecode_outputCompletion {s : State} {x : List Byte} (hin : s.block.InWindowOk)
    (hout : s.block.OutWindowOk) (hx : rleDecode (s.block.inWindow s.turn) = .ok x)
    (hfits : x.length ≤ s.block.outCap.toNat) :
    OutputCompletion s (s.complete (rleDecodeBody s.turn)) x s.block.inLen := by
  refine outputCompletion_of_emit ?_ hfits
  rw [rleDecodeBody, if_pos ⟨hin, hout⟩, hx]

/-- RLE_ENCODE ends with ERR = 0 only where both windows are in bounds and the encoding fits. -/
theorem rleEncode_operands_of_err {turn : Nat} {b : Block} (h : (rleEncodeBody turn b).err = 0#4) :
    b.InWindowOk ∧ b.OutWindowOk ∧ (rleEncode (b.inWindow turn)).length ≤ b.outCap.toNat := by
  unfold rleEncodeBody at h
  split at h
  · next hw => exact ⟨hw.1, hw.2, Block.fits_of_emit_err h⟩
  · cases h

/-- The engine reads the bytes written in its input window. -/
theorem Block.inWindow_eq_of_lookup {b : Block} {y : List Byte} (turn : Nat)
    (hlen : b.inLen.toNat = y.length)
    (h : ∀ (k : Nat) (hk : k < y.length), b.ibuf.lookup (b.inBase.toNat + k) = some y[k]) :
    b.inWindow turn = y := by
  refine List.ext_getElem (by rw [Block.inWindow_length, hlen]) fun k _ hk => ?_
  simp [Block.inWindow, Block.engineByte, h k hk]

/-! ### The statements about the commands -/

/-- Settles O39: the encoding at most doubles the length, so it fits. -/
theorem rleEncodeNeverFailsWithRoom : Obligations.RleEncodeNeverFailsWithRoom := by
  intro s hin hout hroom
  have hlen := rleEncode_length_le (s.block.inWindow s.turn)
  rw [Block.inWindow_length] at hlen
  have completion := rleEncode_outputCompletion hin hout (hlen.trans hroom)
  exact ⟨_, exec_eq_complete .rleEncode s, completion.err, completion.done⟩

/-- Settles O40: RLE_DECODE's input window is the encoding that RLE_ENCODE wrote, which the round
trip of the functions turns back into the original window. -/
theorem rleCommandRoundTrip : Obligations.RleCommandRoundTrip := by
  rintro s t u p hexec herr hcopied rfl hinLen hin hout hcap
  obtain rfl : s.complete (rleEncodeBody s.turn) = t := by
    rwa [exec_eq_complete, Host.Outcome.next.injEq] at hexec
  obtain ⟨hsin, hsout, hsfits⟩ := rleEncode_operands_of_err herr
  have encoded := rleEncode_outputCompletion hsin hsout hsfits
  have copied : u.block.inWindow u.turn = rleEncode (s.block.inWindow s.turn) := by
    refine Block.inWindow_eq_of_lookup u.turn (by rw [hinLen, encoded.outLen]) fun k hk => ?_
    rw [hcopied k (by rwa [encoded.outLen]), encoded.written k hk]
  have decoded := rleDecode_outputCompletion hin hout
    (by rw [copied, rleDecode_rleEncode]) (by rwa [Block.inWindow_length])
  refine ⟨_, exec_eq_complete .rleDecode u, decoded.err, ?outLen, fun k hk => ?bytes⟩
  case outLen =>
    apply BitVec.eq_of_toNat_eq
    rw [← Block.inWindow_length s.turn s.block]
    exact decoded.outLen
  case bytes =>
    have original : k < (s.block.inWindow s.turn).length := by rwa [Block.inWindow_length]
    exact (decoded.written k original).trans (by simp [Block.inWindow])

end Sys2Proof.Machine
end

section
/-! SUPPORT. VLQ (41_vlq R160 to R163): the encoder group by group, and the decoder as the sum of the
groups up to the terminating byte. -/

namespace Sys2Proof.Machine

/-! ### Bytes with a continuation bit (41_vlq R160, R162) -/

/-- Bit 7 marks a byte that more groups follow. -/
theorem continues_iff (x : Byte) : x.getLsbD 7 = true ↔ 128 ≤ x.toNat := by
  revert x; decide

theorem terminates_iff (x : Byte) : x.getLsbD 7 = false ↔ x.toNat < 128 := by
  rw [← Bool.not_eq_true, continues_iff, Nat.not_le]

/-- Setting the continuation bit keeps the group. -/
theorem toNat_or_continuation_mod (x : Byte) : (x ||| 0x80#8).toNat % 128 = x.toNat % 128 := by
  revert x; decide

/-- The encoder's byte for a group that more groups follow, on naturals. -/
theorem group_or_continuation (v : Nat) : (v &&& 0x7F) ||| 0x80 = v % 128 + 128 := by
  rw [Nat.and_two_pow_sub_one_eq_mod v 7, Nat.or_comm, Nat.add_comm]
  exact (Nat.two_pow_add_eq_or_of_lt (i := 7) (Nat.mod_lt v (by decide)) 1).symm

theorem toNat_continued_group (v : Nat) : (BitVec.ofNat 8 (v % 128 + 128)).toNat = v % 128 + 128 := by
  rw [BitVec.toNat_ofNat]
  omega

theorem toNat_last_group {v : Nat} (h : v < 128) : (BitVec.ofNat 8 v).toNat = v := by
  rw [BitVec.toNat_ofNat]
  omega

/-! ### The sum of the groups -/

@[simp] theorem vlqSum_nil : vlqSum [] = 0 := rfl

@[simp] theorem vlqSum_cons (x : Byte) (xs : List Byte) :
    vlqSum (x :: xs) = x.toNat % 128 + 128 * vlqSum xs := rfl

theorem vlqSum_append (xs ys : List Byte) :
    vlqSum (xs ++ ys) = vlqSum xs + 128 ^ xs.length * vlqSum ys := by
  induction xs with
  | nil => simp
  | cons x xs ih =>
    simp only [List.cons_append, vlqSum_cons, List.length_cons, ih]
    ring

/-- Zero groups add nothing (41_vlq R163 (c)). -/
theorem vlqSum_zero_groups (n : Nat) : vlqSum (List.replicate n 0x80#8) = 0 := by
  induction n with
  | zero => rfl
  | succ n ih => rw [List.replicate_succ, vlqSum_cons, ih]; rfl

/-- Any number of trailing zero groups keep the sum (41_vlq R163 (c)). -/
theorem vlqSum_append_zero_groups (pre : List Byte) (last : Byte) (n : Nat) :
    vlqSum (pre ++ [last ||| 0x80#8] ++ List.replicate n 0x80#8 ++ [0x00#8]) =
      vlqSum (pre ++ [last]) := by
  simp only [vlqSum_append, vlqSum_zero_groups, vlqSum_cons, vlqSum_nil, toNat_or_continuation_mod]
  simp

/-! ### The encoder (41_vlq R160, R161) -/

theorem toNat_shiftRight_group (v : Word) : (v >>> 7).toNat = v.toNat / 128 := by
  rw [BitVec.toNat_ushiftRight, Nat.shiftRight_eq_div_pow]

/-- The encoder stops where the value fits one group. -/
theorem shiftRight_group_eq_zero_iff (v : Word) : v >>> 7 = 0#32 ↔ v.toNat < 128 := by
  rw [← BitVec.toNat_inj, toNat_shiftRight_group, BitVec.toNat_ofNat, Nat.zero_mod]
  omega

theorem vlqEncode_of_lt {v : Word} (h : v.toNat < 128) : vlqEncode v = [BitVec.ofNat 8 v.toNat] := by
  have stop : v.toNat >>> 7 = 0 := by rw [Nat.shiftRight_eq_div_pow]; omega
  rw [vlqEncode, Config.vlqMaxConforming, vlqEncodeLoop_succ, if_neg (not_not_intro stop),
    Nat.and_two_pow_sub_one_eq_mod v.toNat 7, Nat.mod_eq_of_lt h]

theorem vlqEncode_of_ge {v : Word} (h : 128 ≤ v.toNat) :
    vlqEncode v = BitVec.ofNat 8 (v.toNat % 128 + 128) :: vlqEncode (v >>> 7) := by
  have hv := v.isLt
  have hs := toNat_shiftRight_group v
  rw [vlqEncode, Config.vlqMaxConforming, vlqEncodeLoop_succ, ← BitVec.toNat_ushiftRight,
    if_pos (by omega), group_or_continuation, vlqEncodeLoop_fuel (m := 4) (by omega) (by omega)]
  rfl

/-- Induction over the groups of a value, as the encoder takes them. -/
theorem group_induction {motive : Word → Prop} (last : ∀ v : Word, v.toNat < 128 → motive v)
    (more : ∀ v : Word, 128 ≤ v.toNat → motive (v >>> 7) → motive v) (v : Word) : motive v := by
  by_cases h : v.toNat < 128
  · exact last v h
  · exact more v (by omega) (group_induction last more (v >>> 7))
termination_by v.toNat
decreasing_by rw [toNat_shiftRight_group]; omega

theorem vlqEncode_ne_nil (v : Word) : vlqEncode v ≠ [] := by
  by_cases h : v.toNat < 128
  · rw [vlqEncode_of_lt h]
    exact List.cons_ne_nil _ _
  · rw [vlqEncode_of_ge (by omega)]
    exact List.cons_ne_nil _ _

theorem getLast?_vlqEncode_of_ge {v : Word} (h : 128 ≤ v.toNat) :
    (vlqEncode v).getLast? = (vlqEncode (v >>> 7)).getLast? := by
  rw [vlqEncode_of_ge h, List.getLast?_cons_of_ne_nil (vlqEncode_ne_nil _)]

/-- An encoding is bytes that continue and one that terminates. -/
theorem vlqEncode_eq_append (v : Word) : ∃ (pre : List Byte) (last : Byte),
    vlqEncode v = pre ++ [last] ∧ (∀ x ∈ pre, x.getLsbD 7 = true) ∧ last.getLsbD 7 = false := by
  induction v using group_induction with
  | last v h =>
    refine ⟨[], _, vlqEncode_of_lt h, by simp, ?_⟩
    rwa [terminates_iff, toNat_last_group h]
  | more v h ih =>
    obtain ⟨pre, last, heq, hpre, hlast⟩ := ih
    refine ⟨_ :: pre, last, by rw [vlqEncode_of_ge h, heq, List.cons_append], ?_, hlast⟩
    refine List.forall_mem_cons.mpr ⟨?_, hpre⟩
    rw [continues_iff, toNat_continued_group]
    omega

/-- The groups of an encoding sum to the value. -/
@[simp] theorem vlqSum_vlqEncode (v : Word) : vlqSum (vlqEncode v) = v.toNat := by
  induction v using group_induction with
  | last v h =>
    rw [vlqEncode_of_lt h, vlqSum_cons, vlqSum_nil, toNat_last_group h]
    omega
  | more v h ih =>
    rw [vlqEncode_of_ge h, vlqSum_cons, ih, toNat_shiftRight_group, toNat_continued_group]
    omega

/-- A value of exactly `n + 1` groups takes `n + 1` bytes, and the last byte is its top group. -/
theorem vlqEncode_of_groups {n : Nat} {v : Word} (hlow : n = 0 ∨ 128 ^ n ≤ v.toNat)
    (hhigh : v.toNat < 128 ^ (n + 1)) : (vlqEncode v).length = n + 1 ∧
      (vlqEncode v).getLast? = some (BitVec.ofNat 8 (v.toNat / 128 ^ n)) := by
  induction n generalizing v with
  | zero =>
    rw [vlqEncode_of_lt (by omega), Nat.pow_zero, Nat.div_one]
    exact ⟨rfl, rfl⟩
  | succ n ih =>
    have hs := toNat_shiftRight_group v
    have low : 128 ^ n ≤ (v >>> 7).toNat := by
      rw [hs, Nat.le_div_iff_mul_le (by decide), ← Nat.pow_succ]
      exact hlow.resolve_left (by omega)
    have high : (v >>> 7).toNat < 128 ^ (n + 1) := by
      rw [hs]
      exact Nat.div_lt_of_lt_mul (by rwa [← Nat.pow_succ'])
    have hv : 128 ≤ v.toNat := by
      have := Nat.one_le_two_pow.trans (Nat.pow_le_pow_left (show 2 ≤ 128 by decide) n)
      omega
    obtain ⟨hlen, hlast⟩ := ih (.inr low) high
    rw [getLast?_vlqEncode_of_ge hv, hlast, hs, Nat.div_div_eq_div_mul, ← Nat.pow_succ',
      vlqEncode_of_ge hv, List.length_cons, hlen]
    exact ⟨rfl, rfl⟩

theorem vlqEncodeLoop_length_le (fuel v : Nat) : (vlqEncodeLoop fuel v).length ≤ fuel := by
  induction fuel generalizing v with
  | zero => exact Nat.le_refl 0
  | succ fuel ih =>
    rw [vlqEncodeLoop_succ]
    split
    · exact Nat.succ_le_succ (ih _)
    · exact Nat.succ_le_succ (Nat.zero_le fuel)

theorem vlqEncode_length_le (v : Word) : (vlqEncode v).length ≤ 5 := vlqEncodeLoop_length_le 5 _

/-- Only the encoding of 0 ends in 00 (41_vlq R161). -/
theorem getLast?_vlqEncode_ne_zero {v : Word} (hv : v.toNat ≠ 0) :
    (vlqEncode v).getLast? ≠ some 0x00#8 := by
  induction v using group_induction with
  | last v h =>
    rw [vlqEncode_of_lt h, List.getLast?_singleton, ne_eq, Option.some_inj, ← BitVec.toNat_inj,
      toNat_last_group h]
    exact hv
  | more v h ih =>
    rw [getLast?_vlqEncode_of_ge h]
    exact ih (by rw [toNat_shiftRight_group]; omega)

/-! ### The decoder (41_vlq R162, R163) -/

/-- The decoder goes on past a byte that continues. -/
theorem vlqDecodeLoop_of_continues {x : Byte} (h : x.getLsbD 7 = true) (i acc : Nat)
    (xs : List Byte) : vlqDecodeLoop i acc (x :: xs) =
      vlqDecodeLoop (i + 1) (acc + x.toNat % 128 * 128 ^ i) xs := by
  rw [vlqDecodeLoop, if_neg (by simp [continuation_clear_iff, h]), group_eq_mod,
    Nat.shiftLeft_eq, Nat.pow_mul]

/-- The decoder stops at a byte that terminates, whatever follows. -/
theorem vlqDecodeLoop_of_terminates {x : Byte} (h : x.getLsbD 7 = false) (i acc : Nat)
    (xs : List Byte) : vlqDecodeLoop i acc (x :: xs) =
      .ok (vlqResult (i + 1) (acc + x.toNat % 128 * 128 ^ i)) := by
  rw [vlqDecodeLoop, if_pos ((continuation_clear_iff x).mpr h), group_eq_mod, Nat.shiftLeft_eq,
    Nat.pow_mul]

theorem vlqDecodeLoop_unterminated {y : List Byte} (h : ∀ x ∈ y, x.getLsbD 7 = true) (i acc : Nat) :
    vlqDecodeLoop i acc y = .error .endOfInput := by
  induction y generalizing i acc with
  | nil => rfl
  | cons x xs ih =>
    obtain ⟨hx, hxs⟩ := List.forall_mem_cons.mp h
    rw [vlqDecodeLoop_of_continues hx, ih hxs]

/-- The decoder adds the groups up to the terminating byte, from the place of the first one on. -/
theorem vlqDecodeLoop_terminated {pre : List Byte} {last : Byte}
    (hpre : ∀ x ∈ pre, x.getLsbD 7 = true) (hlast : last.getLsbD 7 = false) (rest : List Byte)
    (i acc : Nat) : vlqDecodeLoop i acc (pre ++ [last] ++ rest) =
      .ok (vlqResult (i + pre.length + 1) (acc + vlqSum (pre ++ [last]) * 128 ^ i)) := by
  induction pre generalizing i acc with
  | nil => exact vlqDecodeLoop_of_terminates hlast i acc rest
  | cons x xs ih =>
    obtain ⟨hx, hxs⟩ := List.forall_mem_cons.mp hpre
    have sum : acc + x.toNat % 128 * 128 ^ i + vlqSum (xs ++ [last]) * 128 ^ (i + 1) =
        acc + vlqSum (x :: xs ++ [last]) * 128 ^ i := by
      rw [List.cons_append, vlqSum_cons]
      ring
    rw [← sum, List.length_cons, ← Nat.add_assoc i, Nat.add_right_comm i, ← ih hxs]
    exact vlqDecodeLoop_of_continues hx i acc _

theorem vlqDecode_unterminated {y : List Byte} (h : ∀ x ∈ y, x.getLsbD 7 = true) :
    vlqDecode y = .error .endOfInput := vlqDecodeLoop_unterminated h 0 0

theorem vlqDecode_terminated {pre : List Byte} {last : Byte}
    (hpre : ∀ x ∈ pre, x.getLsbD 7 = true) (hlast : last.getLsbD 7 = false) (rest : List Byte) :
    vlqDecode (pre ++ [last] ++ rest) =
      .ok (vlqResult (pre.length + 1) (vlqSum (pre ++ [last]))) := by
  rw [vlqDecode, vlqDecodeLoop_terminated hpre hlast, Nat.zero_add, Nat.zero_add, Nat.pow_zero,
    Nat.mul_one]

/-- Input without bytes after the terminating one. -/
theorem vlqDecode_exact {pre : List Byte} {last : Byte}
    (hpre : ∀ x ∈ pre, x.getLsbD 7 = true) (hlast : last.getLsbD 7 = false) :
    vlqDecode (pre ++ [last]) = .ok (vlqResult (pre.length + 1) (vlqSum (pre ++ [last]))) := by
  simpa using vlqDecode_terminated hpre hlast []

/-- Input either has no terminating byte or splits at the first one. -/
theorem unterminated_or_split (y : List Byte) : (∀ x ∈ y, x.getLsbD 7 = true) ∨
    ∃ (pre : List Byte) (last : Byte) (rest : List Byte), y = pre ++ [last] ++ rest ∧
      (∀ x ∈ pre, x.getLsbD 7 = true) ∧ last.getLsbD 7 = false := by
  induction y with
  | nil => exact .inl (by simp)
  | cons x xs ih =>
    cases hx : x.getLsbD 7 with
    | false => exact .inr ⟨[], x, xs, rfl, by simp, hx⟩
    | true =>
      rcases ih with hxs | ⟨pre, last, rest, rfl, hpre, hlast⟩
      · exact .inl (List.forall_mem_cons.mpr ⟨hx, hxs⟩)
      · exact .inr ⟨x :: pre, last, rest, rfl, List.forall_mem_cons.mpr ⟨hx, hpre⟩, hlast⟩

/-- What the decoder answers is of the bytes it consumed (41_vlq R162). -/
theorem vlqDecode_eq_ok {y : List Byte} {r : VlqResult} (h : vlqDecode y = .ok r) :
    r = vlqResult r.consumed (vlqSum (y.take r.consumed)) := by
  rcases unterminated_or_split y with hy | ⟨pre, last, rest, rfl, hpre, hlast⟩
  · rw [vlqDecode_unterminated hy] at h
    cases h
  · rw [vlqDecode_terminated hpre hlast, Except.ok.injEq] at h
    subst h
    have consumed : (pre ++ [last] ++ rest).take (pre.length + 1) = pre ++ [last] :=
      List.take_left' (by simp)
    exact congrArg (fun bytes => vlqResult _ (vlqSum bytes)) consumed.symm

theorem vlqResult_value_toNat (consumed acc : Nat) :
    (vlqResult consumed acc).value.toNat = acc % 2 ^ 32 := BitVec.toNat_ofNat acc 32

theorem vlqResult_overlong_iff (consumed acc : Nat) :
    (vlqResult consumed acc).overlong = true ↔ 5 < consumed ∨ 2 ^ 32 ≤ acc := decide_eq_true_iff

/-- The round trip of the two functions, with any bytes after the encoding (41_vlq R163 (a), (b)). -/
theorem vlqDecode_vlqEncode_append (v : Word) (z : List Byte) : vlqDecode (vlqEncode v ++ z) =
    .ok { value := v, consumed := (vlqEncode v).length, overlong := false } := by
  obtain ⟨pre, last, heq, hpre, hlast⟩ := vlqEncode_eq_append v
  have hlen := vlqEncode_length_le v
  have hsum := vlqSum_vlqEncode v
  have hv := v.isLt
  rw [heq] at hlen hsum ⊢
  rw [List.length_append, List.length_singleton] at hlen ⊢
  have conforming : ¬ (5 < pre.length + 1 ∨ 2 ^ 32 ≤ v.toNat) := by omega
  rw [vlqDecode_terminated hpre hlast, hsum, vlqResult, BitVec.ofNat_toNat, BitVec.setWidth_eq,
    Config.vlqMaxConforming, decide_eq_false conforming]

theorem vlqDecode_vlqEncode (v : Word) : vlqDecode (vlqEncode v) =
    .ok { value := v, consumed := (vlqEncode v).length, overlong := false } := by
  simpa using vlqDecode_vlqEncode_append v []

/-- Trailing zero groups are consumed and leave the value (41_vlq R163 (c)). -/
theorem vlqDecode_append_zero_groups {pre : List Byte} {last : Byte}
    (hpre : ∀ x ∈ pre, x.getLsbD 7 = true) (n : Nat) :
    vlqDecode (pre ++ [last ||| 0x80#8] ++ List.replicate n 0x80#8 ++ [0x00#8]) =
      .ok (vlqResult (pre.length + 1 + n + 1) (vlqSum (pre ++ [last]))) := by
  have continued : ∀ x ∈ pre ++ [last ||| 0x80#8] ++ List.replicate n 0x80#8,
      x.getLsbD 7 = true := by
    intro x hx
    simp only [List.mem_append, List.mem_singleton, List.mem_replicate] at hx
    rcases hx with (hx | rfl) | ⟨-, rfl⟩
    · exact hpre x hx
    · simp
    · rfl
  rw [vlqDecode_exact continued rfl, vlqSum_append_zero_groups]
  simp only [List.length_append, List.length_singleton, List.length_replicate]

/-! ### The statements about the functions -/

/-- Settles O23, by the encoder's two equations. -/
theorem vlqEncodeEmitsGroups : Obligations.VlqEncodeEmitsGroups := by
  refine ⟨rfl, fun v => ⟨fun h => ?more, fun h => ?last⟩⟩
  case more =>
    have hv : 128 ≤ v.toNat := by rwa [ne_eq, shiftRight_group_eq_zero_iff, Nat.not_lt] at h
    have byte : BitVec.ofNat 8 (v.toNat % 128 + 128) = (v &&& 0x7F#32).setWidth 8 ||| 0x80#8 := by
      rw [← group_or_continuation, BitVec.ofNat_or]
      congr 1
    rw [vlqEncode_of_ge hv, byte, List.singleton_append]
  case last =>
    have hv := (shiftRight_group_eq_zero_iff v).mp h
    have group : v.toNat &&& 0x7F = v.toNat := by
      rw [Nat.and_two_pow_sub_one_eq_mod v.toNat 7, Nat.mod_eq_of_lt hv]
    rw [vlqEncode_of_lt hv, ← group]
    rfl

/-- Settles O24, each row by the number of the value's groups. -/
theorem vlqEncodeLengthTable : Obligations.VlqEncodeLengthTable := by
  intro v
  have hv := v.isLt
  simp only [Nat.shiftRight_eq_div_pow]
  refine ⟨fun hhigh => ?one, fun hlow hhigh => ?two, fun hlow hhigh => ?three,
    fun hlow hhigh => ?four, fun hlow => ?five, vlqEncode_length_le v, fun hlen => ?nonzero⟩
  case one =>
    rw [← Nat.div_one v.toNat]
    exact vlqEncode_of_groups (n := 0) (.inl rfl) (by omega)
  case two =>
    exact and_assoc.mp ⟨vlqEncode_of_groups (n := 1) (.inr hlow) (by omega), by omega, by omega⟩
  case three =>
    exact and_assoc.mp ⟨vlqEncode_of_groups (n := 2) (.inr hlow) (by omega), by omega, by omega⟩
  case four =>
    exact and_assoc.mp ⟨vlqEncode_of_groups (n := 3) (.inr hlow) (by omega), by omega, by omega⟩
  case five =>
    exact and_assoc.mp ⟨vlqEncode_of_groups (n := 4) (.inr hlow) (by omega), by omega, by omega⟩
  case nonzero =>
    refine getLast?_vlqEncode_ne_zero fun hzero => ?_
    rw [vlqEncode_of_lt (by omega), List.length_singleton] at hlen
    omega

/-- Settles O25, by induction over the bytes before the terminating one. -/
theorem vlqDecodeReadsToTerminator : Obligations.VlqDecodeReadsToTerminator := by
  refine ⟨fun y => vlqDecode_unterminated, fun pre rest last hpre hlast => ?_⟩
  have low (n : Nat) : BitVec.ofNat 32 (n % 2 ^ 32) = BitVec.ofNat 32 n := by
    rw [← BitVec.toNat_inj, BitVec.toNat_ofNat, BitVec.toNat_ofNat, Nat.mod_mod]
  rw [vlqDecode_terminated hpre hlast, low]
  rfl

/-- Settles O26, each clause by what the decoder answers at the first terminating byte; of the examples,
by evaluation. -/
theorem vlqDecodeProperties : Obligations.VlqDecodeProperties := by
  refine ⟨vlqDecode_vlqEncode, ⟨fun pre rest last hpre hlast => ?rest, fun v z => ?restOfEncoding⟩,
    ⟨fun pre last n hpre hlast => ?zeroGroups, rfl, rfl⟩, ⟨rfl, fun y => vlqDecode_unterminated⟩,
    ⟨fun y r h => ?sum, rfl, rfl⟩, ⟨fun pre rest last hpre hlast hlong => ?long, rfl⟩,
    fun y r h => ?conforming, fun v => ?encoding⟩
  case rest => rw [vlqDecode_terminated hpre hlast, vlqDecode_exact hpre hlast]
  case restOfEncoding => rw [vlqDecode_vlqEncode_append, vlqDecode_vlqEncode]
  case zeroGroups =>
    exact ⟨_, _, vlqDecode_exact hpre hlast, vlqDecode_append_zero_groups hpre n, rfl, rfl⟩
  case sum =>
    rw [vlqDecode_eq_ok h]
    exact ⟨vlqResult_value_toNat _ _, fun hsum => (vlqResult_overlong_iff _ _).mpr (.inr hsum)⟩
  case long =>
    exact ⟨_, vlqDecode_terminated hpre hlast rest, rfl,
      (vlqResult_overlong_iff _ _).mpr (.inl (by omega))⟩
  case conforming =>
    rw [vlqDecode_eq_ok h, ← Bool.not_eq_true, vlqResult_overlong_iff, not_or, Nat.not_lt,
      Nat.not_le]
    rfl
  case encoding =>
    rw [vlqSum_vlqEncode]
    exact ⟨vlqEncode_length_le v, v.isLt⟩

end Sys2Proof.Machine
end

section
/-! SUPPORT. The errors of 60_exceptions: with which code each command ends and why (R203 to R208), the
illegal command inside its write (R211), and the interrupt output (R212). -/

namespace Sys2Proof.Machine

/-! ### The windows a command uses (60_exceptions R205) -/

/-- Every window the command uses is in bounds (30_encoding R94 to R96). -/
def Block.UsedWindowsOk (b : Block) (i : Instr) : Prop :=
  match i with
  | .rleEncode => b.InWindowOk ∧ b.OutWindowOk
  | .rleDecode => b.InWindowOk ∧ b.OutWindowOk
  | .vlqEncode => b.OutWindowOk
  | .vlqDecode => b.InWindowOk

/-- The bounds are tested before anything else (60_exceptions R205). -/
theorem commandBody_of_out_of_bounds {b : Block} {i : Instr} (h : ¬ b.UsedWindowsOk i)
    (turn : Nat) : commandBody i turn b = b.raise .bounds := by
  cases i <;> exact if_neg h

/-! ### The errors of the two decoders (60_exceptions R203, R204) -/

theorem rleDecodeBody_of_odd {b : Block} (hw : b.InWindowOk ∧ b.OutWindowOk)
    (hodd : b.inLen.toNat % 2 = 1) (turn : Nat) :
    rleDecodeBody turn b = b.raise .malformedData := by
  rw [rleDecodeBody, if_pos hw, rleDecode_of_odd (by rwa [Block.inWindow_length])]

theorem rleDecodeBody_of_even {b : Block} (hw : b.InWindowOk ∧ b.OutWindowOk)
    (heven : b.inLen.toNat % 2 = 0) (turn : Nat) :
    rleDecodeBody turn b = b.emit turn (expandPairs (b.inWindow turn)) b.inLen := by
  rw [rleDecodeBody, if_pos hw, rleDecode_of_even (by rwa [Block.inWindow_length])]

theorem vlqDecodeBody_of_unterminated {b : Block} {turn : Nat} (hin : b.InWindowOk)
    (hy : ∀ x ∈ b.inWindow turn, x.getLsbD 7 = true) :
    vlqDecodeBody turn b = b.raise .endOfInput := by
  rw [vlqDecodeBody, if_pos hin, vlqDecode_unterminated hy]

theorem vlqDecodeBody_of_ok {b : Block} {turn : Nat} {r : VlqResult} (hin : b.InWindowOk)
    (hr : vlqDecode (b.inWindow turn) = .ok r) : vlqDecodeBody turn b =
      { b.succeed 0#32 (BitVec.ofNat 32 r.consumed) r.overlong with value := r.value } := by
  rw [vlqDecodeBody, if_pos hin, hr]

theorem Block.inWindow_eq_nil {b : Block} (h : b.inLen = 0#32) (turn : Nat) :
    b.inWindow turn = [] :=
  List.eq_nil_of_length_eq_zero (by simp [h])

/-! ### The code a command ends with -/

/-- A command's output either fits or overflows OUT_CAP (60_exceptions R206). -/
theorem Block.emit_err (turn : Nat) (y : List Byte) (consumed : Word) (b : Block) :
    ∃ e : ErrCode, (e = .none ∨ e = .outputOverflow) ∧ (b.emit turn y consumed).err = e.code := by
  unfold Block.emit
  split
  · exact ⟨.outputOverflow, .inr rfl, rfl⟩
  · exact ⟨.none, .inl rfl, rfl⟩

/-- What the code a command ends with says of its operands. Codes 4, 1 and 2 name the operands' fault
(60_exceptions R203 to R205); what tells success from OUTPUT_OVERFLOW (R206) is left out. -/
inductive Block.EndsWith (turn : Nat) (b : Block) : Instr → ErrCode → Prop where
  | bounds (i : Instr) : ¬ b.UsedWindowsOk i → Block.EndsWith turn b i .bounds
  | malformedData : b.UsedWindowsOk .rleDecode → b.inLen.toNat % 2 = 1 →
      Block.EndsWith turn b .rleDecode .malformedData
  | endOfInput : b.UsedWindowsOk .vlqDecode → (∀ x ∈ b.inWindow turn, x.getLsbD 7 = true) →
      Block.EndsWith turn b .vlqDecode .endOfInput
  | accepted (i : Instr) (e : ErrCode) : b.UsedWindowsOk i → e = .none ∨ e = .outputOverflow →
      Block.EndsWith turn b i e

/-- A command with its windows in bounds whose body emits an output ends with no error or overflows. -/
theorem Block.endsWith_of_emit {turn : Nat} {b : Block} {i : Instr} {y : List Byte}
    {consumed : Word} (hw : b.UsedWindowsOk i)
    (hbody : commandBody i turn b = b.emit turn y consumed) :
    ∃ e, b.EndsWith turn i e ∧ (commandBody i turn b).err = e.code := by
  obtain ⟨e, he, herr⟩ := b.emit_err turn y consumed
  exact ⟨e, .accepted i e hw he, by rw [hbody, herr]⟩

/-- The code in ERR after a command's body is one that `EndsWith` allows. -/
theorem commandBody_endsWith (i : Instr) (turn : Nat) (b : Block) :
    ∃ e, b.EndsWith turn i e ∧ (commandBody i turn b).err = e.code := by
  by_cases hw : b.UsedWindowsOk i
  case neg => exact ⟨.bounds, .bounds i hw, by rw [commandBody_of_out_of_bounds hw, Block.raise_err]⟩
  cases i with
  | rleEncode => exact Block.endsWith_of_emit hw (if_pos hw)
  | rleDecode =>
    rcases Nat.mod_two_eq_zero_or_one b.inLen.toNat with heven | hodd
    · exact Block.endsWith_of_emit hw (rleDecodeBody_of_even hw heven turn)
    · exact ⟨.malformedData, .malformedData hw hodd,
        by rw [commandBody, rleDecodeBody_of_odd hw hodd, Block.raise_err]⟩
  | vlqEncode => exact Block.endsWith_of_emit hw (if_pos hw)
  | vlqDecode =>
    rcases unterminated_or_split (b.inWindow turn) with hy | ⟨pre, last, rest, hy, hpre, hlast⟩
    · exact ⟨.endOfInput, .endOfInput hw hy,
        by rw [commandBody, vlqDecodeBody_of_unterminated hw hy, Block.raise_err]⟩
    · have hr := vlqDecode_terminated hpre hlast rest
      rw [← hy] at hr
      exact ⟨.none, .accepted _ _ hw (.inl rfl), by rw [commandBody, vlqDecodeBody_of_ok hw hr]; rfl⟩

theorem ErrCode.code_injective {e e' : ErrCode} (h : e.code = e'.code) : e = e' := by
  revert h
  cases e <;> cases e' <;> decide

/-- The code a command left in ERR says why it ended so. -/
theorem exec_endsWith {i : Instr} {s t : State} {e : ErrCode} (h : exec i s = .next t)
    (herr : t.block.err = e.code) : s.block.EndsWith s.turn i e := by
  rw [exec_eq_complete, Host.Outcome.next.injEq] at h
  obtain ⟨e', hends, he'⟩ := commandBody_endsWith i s.turn s.block
  have same : e = e' := ErrCode.code_injective (by rw [← herr, ← h, State.complete_block,
    Block.finish_err, he'])
  exact same ▸ hends

/-- A command whose body does nothing but raise an error changes no buffer byte (60_exceptions R202). -/
theorem exec_errorCompletion {i : Instr} {s : State} {e : ErrCode}
    (hbody : commandBody i s.turn s.block = s.block.raise e) :
    ∃ t, exec i s = .next t ∧ ErrorCompletion s t e.code := by
  refine ⟨_, exec_eq_complete i s, ?_⟩
  simp only [ErrorCompletion, State.complete, hbody]
  rfl

/-! ### The codes that are never written (60_exceptions R208) -/

theorem Block.EndsWith.errDefined {turn : Nat} {b : Block} {i : Instr} {e : ErrCode}
    (h : b.EndsWith turn i e) : ErrDefined e.code := by
  cases h with
  | bounds | malformedData | endOfInput => decide
  | accepted _ _ _ he => rcases he with rfl | rfl <;> decide

/-- A host write that changes ERR issues a command or completes an illegal one (30_encoding R92). -/
theorem Block.busWrite_err_ne {b b' : Block} {a : Offset} {n : Size} {v : Word}
    (h : b.busWrite a n v = some b') (hne : b'.err ≠ b.err) : b'.err = 0#4 ∨ b'.err = 6#4 := by
  cases Block.busWrite_effect h with
  | issued => exact .inl rfl
  | illegal => exact .inr rfl
  | stored which => cases which <;> exact absurd rfl hne
  | _ => exact absurd rfl hne

/-! ### The interrupt output (60_exceptions R212) -/

theorem Block.irq_eq_true_iff (b : Block) : b.irq = true ↔ b.ie = true ∧ b.done = true :=
  Bool.and_eq_true_iff

theorem Block.irq_of_not_done {b : Block} (h : b.done = false) : b.irq = false := by
  rw [Block.irq, h, Bool.and_false]

theorem Block.eq_writeReg_of_busWrite {b b' : Block} {r : Reg} {w : Word}
    (h : b.busWrite r.offset .four w = some b') : b' = b.writeReg w r := by
  rw [Block.busWrite_offset, Option.some.injEq] at h
  exact h.symm

/-! ### The host's write -/

/-- A write statement whose transaction answers OK goes on to the next statement (30_encoding R100). -/
theorem State.hostWrite_of_busWrite {s : State} {n : Size} {a : Offset} {v : Word} {b : Block}
    (h : s.block.busWrite a n v = some b) :
    s.hostWrite n a v = { s with block := b, host := s.host.next } := by
  rw [State.hostWrite, h]

/-! ### The statements -/

/-- Settles O4: the host's turn is the write to CMD, and that write completes the illegal command. -/
theorem illegalCommandCompletesInItsWrite : Obligations.IllegalCommandCompletesInItsWrite := by
  intro s w hf hw hillegal
  have written : s.takeTurn.block.busWrite Reg.cmd.offset .four w =
      some s.block.completeIllegal := by
    rw [State.takeTurn_block, Block.busWrite_offset, Block.writeReg,
      Block.writeCmd_illegal hf hillegal]
  rw [step_of_writes hw, State.hostWrite_of_busWrite written]
  rfl

/-- Settles O31, by the test of the used windows that stands first in each command. -/
theorem boundsIsCheckedFirst : Obligations.BoundsIsCheckedFirst := by
  intro s
  have outOfBounds : ∀ i, ¬ s.block.UsedWindowsOk i →
      ∃ t, exec i s = .next t ∧ ErrorCompletion s t 4#4 :=
    fun i hw => exec_errorCompletion (commandBody_of_out_of_bounds hw s.turn)
  refine ⟨fun hw => ⟨outOfBounds .rleEncode hw, outOfBounds .rleDecode hw⟩,
    outOfBounds .vlqEncode, outOfBounds .vlqDecode, fun i t h herr => ?only⟩
  case only =>
    cases exec_endsWith (e := .bounds) h herr with
    | accepted _ _ _ he => simp at he
    | bounds _ hw =>
      cases i with
      | rleEncode => exact .inl ⟨.inl rfl, hw⟩
      | rleDecode => exact .inl ⟨.inr rfl, hw⟩
      | vlqEncode => exact .inr (.inl ⟨rfl, hw⟩)
      | vlqDecode => exact .inr (.inr ⟨rfl, hw⟩)

/-- Settles O32: the decoder refuses odd input, and no other end of a command has code 1. -/
theorem malformedDataOnOddLength : Obligations.MalformedDataOnOddLength := by
  refine fun s => ⟨fun hin hout hodd => ?raised, fun i t h herr => ?only⟩
  case raised =>
    exact exec_errorCompletion (i := .rleDecode) (rleDecodeBody_of_odd ⟨hin, hout⟩ hodd s.turn)
  case only =>
    cases exec_endsWith (e := .malformedData) h herr with
    | accepted _ _ _ he => simp at he
    | malformedData hw hodd => exact ⟨rfl, hw.1, hw.2, hodd⟩

/-- Settles O33: the decoder runs off input that never terminates, the empty input among it, and no other
end of a command has code 2. -/
theorem endOfInputWithoutTerminator : Obligations.EndOfInputWithoutTerminator := by
  intro s
  have unterminated : s.block.InWindowOk →
      (∀ x ∈ s.block.inWindow s.turn, x.getLsbD 7 = true) →
      ∃ t, exec .vlqDecode s = .next t ∧ ErrorCompletion s t 2#4 :=
    fun hin hy => exec_errorCompletion (i := .vlqDecode) (vlqDecodeBody_of_unterminated hin hy)
  refine ⟨unterminated, fun hin hzero => unterminated hin ?empty, fun i t h herr => ?only⟩
  case empty =>
    rw [Block.inWindow_eq_nil hzero]
    exact List.forall_mem_nil _
  case only =>
    cases exec_endsWith (e := .endOfInput) h herr with
    | accepted _ _ _ he => simp at he
    | endOfInput hin hy => exact ⟨rfl, hin, hy⟩

/-- Settles O51, by the kinds of step: host writes, reset and completions write defined codes only. -/
theorem reservedErrorCodesAreNeverWritten : Obligations.ReservedErrorCodesAreNeverWritten := by
  intro s t h hne
  rcases step_block_effect h with hb | ⟨n, a, v, _, hb⟩ | ⟨_, hb⟩ | ⟨_, _, i, hb⟩
  · exact absurd (congrArg Block.err hb) hne
  · rcases Block.busWrite_err_ne hb hne with herr | herr <;> rw [herr] <;> decide
  · rw [hb]
    exact .inl rfl
  · obtain ⟨e, hends, herr⟩ := commandBody_endsWith i s.takeTurn.turn s.block
    rw [hb, Block.finish_err, herr]
    exact hends.errDefined

/-- Settles O54: IRQ is the level of the two bits, and an acknowledge, an issue and reset clear DONE. -/
theorem irqFollowsEnableAndDone : Obligations.IrqFollowsEnableAndDone := by
  refine ⟨Block.irq_eq_true_iff, fun b b' w h => ?ctrl, fun b b' w h hbit => ?status,
    fun b b' i hf h => ?issue, fun s t ha h => ?reset⟩
  case ctrl =>
    rw [Block.eq_writeReg_of_busWrite h, Block.irq, Block.writeReg, Block.writeCtrl_ie,
      Block.writeCtrl_done]
  case status =>
    rw [Block.eq_writeReg_of_busWrite h]
    exact Block.irq_of_not_done (by simp [Block.writeReg, hbit])
  case issue =>
    rw [Block.eq_writeReg_of_busWrite h, Block.writeReg, Block.writeCmd_encode i hf]
    exact Block.irq_of_not_done (Block.issue_done _ b)
  case reset =>
    rw [step_block_of_reset h ha]
    exact Block.irq_of_not_done rfl

end Sys2Proof.Machine
end

section
/-! SUPPORT. The invariant of the block (60_exceptions R202, R208, R210; 10_state R27): what keeps it, step
by step, and that under it the machine never stops. -/

namespace Sys2Proof.Machine

/-! ### Operations that keep the invariant -/

theorem Block.inv_reset {cfg : Config} (h : cfg.Legal) (epoch : Nat) :
    (Block.reset cfg epoch).Inv where
  legal := h
  ibufForm := rfl
  obufForm := rfl
  errDefined := .inl rfl
  busyOp := nofun
  busyClean := nofun
  errorZero := fun hne => absurd rfl hne
  overlongZero := nofun
  resultsFit := ⟨Nat.zero_le _, Nat.zero_le _⟩

/-- The invariant does not speak of WDROP, IE, VALUE and the operands, and allows DONE to be cleared. -/
theorem Block.Inv.of_same_core {b b' : Block} (h : b.Inv)
    (same : b' = { b with
      done := b'.done, wdrop := b'.wdrop, ie := b'.ie, inBase := b'.inBase, inLen := b'.inLen,
      outBase := b'.outBase, outCap := b'.outCap, value := b'.value })
    (hdone : b.done = false → b'.done = false) : b'.Inv := by
  rw [same]
  exact { h with
    busyClean := fun hf =>
      have ⟨done, err, overlong⟩ := h.busyClean hf
      ⟨hdone done, err, overlong⟩ }

theorem Block.Inv.issue {b : Block} (h : b.Inv) (i : Instr) : (b.issue (opOfInstr i)).Inv :=
  { h with
    errDefined := .inl rfl
    busyOp := fun _ => (instrOfOp_isSome _).mp <| by
      rw [Block.issue_latchedOp, instrOfOp_opOfInstr, Option.isSome_some]
    busyClean := fun _ => ⟨rfl, rfl, rfl⟩
    errorZero := fun hne => absurd rfl hne
    overlongZero := nofun }

theorem Block.Inv.completeIllegal {b : Block} (h : b.Inv) (hf : b.fsm = .idle) :
    b.completeIllegal.Inv :=
  { h with
    errDefined := .inr (.inr (.inr (.inr (.inr rfl))))
    busyClean := fun hbusy => by simp [hf] at hbusy
    errorZero := fun _ => ⟨rfl, rfl, rfl⟩
    overlongZero := nofun
    resultsFit := ⟨Nat.zero_le _, Nat.zero_le _⟩ }

theorem Block.Inv.storeBytes {b : Block} (h : b.Inv) {which : Buffer} {i : Nat} {xs : List Byte}
    (hfit : i + xs.length ≤ b.bufSize which) : (b.storeBytes which i xs).Inv := by
  cases which with
  | ibuf => exact { h with ibufForm := Memory.wf_writeBytes xs hfit h.ibufForm }
  | obuf => exact { h with obufForm := Memory.wf_writeBytes xs hfit h.obufForm }

theorem Block.Inv.clobberOutput {b : Block} (h : b.Inv) (hout : b.OutWindowOk) (turn : Nat) :
    (b.clobberOutput turn).Inv :=
  h.storeBytes (by simpa [Block.bufSize] using hout)

/-- A host write that answers OK keeps the invariant (20_memory R70). -/
theorem Block.Inv.busWrite {b b' : Block} {a : Offset} {n : Size} {v : Word} (h : b.Inv)
    (hw : b.busWrite a n v = some b') : b'.Inv := by
  cases Block.busWrite_effect hw with
  | dropped | controlled | inBase | inLen | outBase | outCap | value | ignored =>
    exact h.of_same_core rfl id
  | acknowledged => exact h.of_same_core rfl fun hd => by simp [hd]
  | issued i => exact h.issue i
  | illegal e hf => exact h.completeIllegal hf
  | stored which i xs _ hfit => exact h.storeBytes hfit

/-! ### Completions -/

/-- A raised error keeps the invariant, whatever FSM is by then. -/
theorem Block.Inv.finish_raise {b : Block} (h : b.Inv) {e : ErrCode} (he : ErrDefined e.code) :
    (b.raise e).finish.Inv :=
  { h with
    errDefined := he
    busyOp := nofun
    busyClean := nofun
    errorZero := fun _ => ⟨rfl, rfl, rfl⟩
    overlongZero := nofun
    resultsFit := ⟨Nat.zero_le _, Nat.zero_le _⟩ }

/-- A success keeps the invariant when its results fit the buffers and OVERLONG stands beside OUT_LEN
0. -/
theorem Block.Inv.finish_succeed {b : Block} (h : b.Inv) {outLen consumed : Word} {overlong : Bool}
    (hoverlong : overlong = true → outLen = 0#32) (hout : outLen.toNat ≤ b.cfg.obufSize)
    (hin : consumed.toNat ≤ b.cfg.ibufSize) : (b.succeed outLen consumed overlong).finish.Inv :=
  { h with
    errDefined := .inl rfl
    busyOp := nofun
    busyClean := nofun
    errorZero := fun hne => absurd rfl hne
    overlongZero := hoverlong
    resultsFit := ⟨hout, hin⟩ }

theorem Block.toNat_consumed_le {b : Block} {consumed : Word}
    (h : consumed = 0#32 ∨ (b.InWindowOk ∧ consumed = b.inLen)) :
    consumed.toNat ≤ b.cfg.ibufSize := by
  rcases h with rfl | ⟨hin, rfl⟩
  · exact Nat.zero_le _
  · omega

/-- What VLQ_DECODE consumed fits IN_LEN, and so CONSUMED (41_vlq R165). -/
theorem Block.consumed_of_vlqDecode {turn : Nat} {b : Block} {r : VlqResult}
    (h : vlqDecode (b.inWindow turn) = .ok r) :
    1 ≤ r.consumed ∧ r.consumed ≤ b.inLen.toNat ∧
      (BitVec.ofNat 32 r.consumed : Word).toNat = r.consumed := by
  obtain ⟨hpos, hle⟩ := vlqDecodeLoop_consumed h
  rw [Nat.zero_add, Block.inWindow_length] at hle
  exact ⟨hpos, hle, toNat_outLen_of_fits hle⟩

/-- A completion step keeps the invariant (60_exceptions R210). -/
theorem Block.Inv.finish_commandBody {b : Block} (h : b.Inv) (i : Instr) (turn : Nat) :
    (commandBody i turn b).finish.Inv := by
  have effect := commandBody_effect i turn b
  generalize commandBody i turn b = b' at effect ⊢
  cases effect with
  | raised e he => exact h.finish_raise (by rcases he with rfl | rfl | rfl <;> decide)
  | overflowed hout => exact (h.clobberOutput hout turn).finish_raise (by decide)
  | emitted y consumed hout hfit hc =>
    have stored : (b.storeBytes .obuf b.outBase.toNat y).Inv :=
      h.storeBytes (by simp only [Block.bufSize]; omega)
    have outLen := toNat_outLen_of_fits hfit
    exact stored.finish_succeed nofun (by rw [outLen, Block.storeBytes_cfg]; omega)
      (b.toNat_consumed_le hc)
  | decoded r hin hr =>
    obtain ⟨-, hle, hconsumed⟩ := Block.consumed_of_vlqDecode hr
    have results := h.finish_succeed (outLen := 0#32) (consumed := BitVec.ofNat 32 r.consumed)
      (overlong := r.overlong) (fun _ => rfl) (Nat.zero_le _) (by omega)
    exact results.of_same_core rfl id

/-! ### Steps and runs -/

theorem step_keeps_inv {s t : State} (hs : s.Inv) (h : step s = .next t) : t.Inv := by
  rcases step_block_effect h with hb | ⟨n, a, v, _, hb⟩ | ⟨_, hb⟩ | ⟨_, _, i, hb⟩
  · rwa [State.Inv, hb]
  · exact hs.busWrite hb
  · rw [State.Inv, hb]
    exact Block.inv_reset hs.legal _
  · rw [State.Inv, hb]
    exact hs.finish_commandBody i _

theorem step_of_host {s : State} (ha : s.nextAgent = .host) :
    step s = .next s.takeTurn.hostStep := by rw [step, ha, State.agentStep]

theorem step_of_reset {s : State} (ha : s.nextAgent = .reset) :
    step s = .next s.takeTurn.resetEvent := by rw [step, ha, State.agentStep]

theorem step_of_engine {s : State} (ha : s.nextAgent = .engine) :
    step s = s.takeTurn.engineStep := by rw [step, ha, State.agentStep]

theorem step_of_engine_idle {s : State} (ha : s.nextAgent = .engine) (hf : s.block.fsm = .idle) :
    step s = .next s.takeTurn := by
  simp only [step_of_engine ha, State.engineStep, State.takeTurn_block, hf]

/-- A turn of the busy engine runs the command in LATCHED_OP (60_exceptions R210). -/
theorem step_of_engine_busy {s : State} {i : Instr} (ha : s.nextAgent = .engine)
    (hf : s.block.fsm = .busy) (hop : s.block.latchedOp = opOfInstr i) :
    step s = exec i s.takeTurn := by
  simp only [step_of_engine ha, State.engineStep, State.takeTurn_block, hf, hop,
    instrOfOp_opOfInstr]

/-- Under the invariant every agent's turn answers a next state: the engine's too, as LATCHED_OP is a
command while FSM = BUSY (60_exceptions R210). -/
theorem exists_step_of_inv {s : State} (hs : s.Inv) : ∃ t, step s = .next t := by
  cases ha : s.nextAgent with
  | host => exact ⟨_, step_of_host ha⟩
  | reset => exact ⟨_, step_of_reset ha⟩
  | engine =>
    cases hf : s.block.fsm with
    | idle => exact ⟨_, step_of_engine_idle ha hf⟩
    | busy =>
      obtain ⟨i, hi⟩ := Option.isSome_iff_exists.mp ((instrOfOp_isSome _).mpr (hs.busyOp hf))
      exact ⟨_, (step_of_engine_busy ha hf (instrOfOp_eq_some hi)).trans (exec_eq_complete i _)⟩

theorem exists_run_of_inv (k : Nat) {s : State} (hs : s.Inv) :
    ∃ t : State, Host.Core.run Sys2Proof.core k s = .next t ∧ t.Inv := by
  induction k generalizing s with
  | zero => exact ⟨s, rfl, hs⟩
  | succ k ih =>
    obtain ⟨t, ht⟩ := exists_step_of_inv hs
    rw [run_succ k ht]
    exact ih (step_keeps_inv hs ht)

/-! ### The statements -/

/-- Settles O48: the reset values with the default sizes, which are legal. -/
theorem resetStateMeetsTheInvariant : Obligations.ResetStateMeetsTheInvariant :=
  Block.inv_reset (by decide) 0

/-- Settles O49, by the kinds of step: host writes, reset and completions each keep the invariant. -/
theorem stepKeepsTheInvariant : Obligations.StepKeepsTheInvariant :=
  fun _ _ => step_keeps_inv

/-- Settles O50, by induction on the number of steps. -/
theorem machineNeverStopsUnderTheInvariant : Obligations.MachineNeverStopsUnderTheInvariant :=
  fun k _ => exists_run_of_inv k

end Sys2Proof.Machine
end

section
/-! SUPPORT. The one-pass RLE encoder (40_rle R120), and the four commands as completion steps: their
results (40_rle R124, R125; 41_vlq R164, R165), OUTPUT_OVERFLOW (60_exceptions R206), what an error and a
command change (R202, R210), and what a command reads (20_memory R78). -/

namespace Sys2Proof.Machine

/-! ### The one-pass encoder -/

/-- The counter stands for the copies of the current byte that are not emitted yet. -/
theorem rleScan_eq_rleEncode {n : Nat} {x : Byte} {xs : List Byte} (hpos : 1 ≤ n) (hle : n ≤ 255) :
    rleScan n x xs = rleEncode (List.replicate n x ++ xs) := by
  induction xs generalizing n x with
  | nil =>
    have pair : OnePair n x [] := ⟨hpos, hle, .inr nofun⟩
    rw [pair.rleEncode_eq, rleEncode_nil, rleScan]
  | cons y ys ih =>
    rw [rleScan, Config.rleMaxRun]
    split
    · next hcount =>
      obtain ⟨rfl, hlt⟩ := hcount
      rw [ih (by omega) hlt, List.replicate_succ', List.append_assoc, List.singleton_append]
    · next hemit =>
      have boundary : n = 255 ∨ (y :: ys).head? ≠ some x := by
        rw [List.head?_cons, ne_eq, Option.some_inj]
        by_cases hy : y = x
        · exact .inl (Nat.le_antisymm hle (Nat.not_lt.mp fun hlt => hemit ⟨hy, hlt⟩))
        · exact .inr hy
      have pair : OnePair n x (y :: ys) := ⟨hpos, hle, boundary⟩
      rw [pair.rleEncode_eq, ih (Nat.le_refl 1) (by decide), List.replicate_one,
        List.singleton_append]

/-! ### OUTPUT_OVERFLOW (60_exceptions R206) -/

theorem Block.byte_clobberOutput_inside {b : Block} {j : Nat} (h : b.InOutWindow j) (turn : Nat) :
    (b.clobberOutput turn).byte .obuf j = Config.overflowByte turn j := by
  obtain ⟨k, rfl⟩ := Nat.exists_eq_add_of_le h.1
  have hk : k < b.outCap.toNat := by have := h.2; omega
  rw [Block.clobberOutput, Block.byte_storeBytes_inside _ _ _ _ _ (by simpa using hk)]
  simp

theorem Block.byte_clobberOutput_outside {b : Block} {j : Nat} (h : ¬ b.InOutWindow j)
    (turn : Nat) : (b.clobberOutput turn).byte .obuf j = b.byte .obuf j :=
  Block.byte_storeBytes_outside b .obuf .obuf _ j _
    (.inr (by rw [List.length_map, List.length_range]; omega))

theorem Block.emit_of_overflows {b : Block} {y : List Byte} (h : b.outCap.toNat < y.length)
    (turn : Nat) (consumed : Word) :
    b.emit turn y consumed = (b.clobberOutput turn).raise .outputOverflow := if_pos h

theorem Block.overflows_of_emit_err {turn : Nat} {b : Block} {y : List Byte} {consumed : Word}
    (h : (b.emit turn y consumed).err = 5#4) : b.outCap.toNat < y.length := by
  unfold Block.emit at h
  split at h
  · assumption
  · cases h

/-- A command whose body emits an output longer than OUT_CAP leaves its window open. -/
theorem overflowCompletion_of_emit {s : State} {body : Block → Block} {y : List Byte}
    {consumed : Word} (hbody : body s.block = s.block.emit s.turn y consumed)
    (hover : s.block.outCap.toNat < y.length) : OverflowCompletion s (s.complete body) := by
  rw [Block.emit_of_overflows hover] at hbody
  refine ⟨?rest, fun j hj => ?inside, fun j hj => ?outside, fun j => ?input⟩
  case rest => simp only [State.complete, hbody]; rfl
  case inside =>
    rw [State.complete_block, hbody]
    exact Block.byte_clobberOutput_inside hj s.turn
  case outside =>
    rw [State.complete_block, hbody]
    exact Block.byte_clobberOutput_outside hj s.turn
  case input => rw [State.complete_block, hbody]; rfl

/-! ### The bodies of the commands by what they can end in -/

theorem vlqEncodeBody_of_inBounds {b : Block} (h : b.OutWindowOk) (turn : Nat) :
    vlqEncodeBody turn b = b.emit turn (vlqEncode b.value) 0#32 := if_pos h

theorem rleEncodeBody_of_inBounds {b : Block} (hin : b.InWindowOk) (hout : b.OutWindowOk)
    (turn : Nat) :
    rleEncodeBody turn b = b.emit turn (rleEncode (b.inWindow turn)) b.inLen := if_pos ⟨hin, hout⟩

theorem rleDecodeBody_of_ok {b : Block} {turn : Nat} {x : List Byte} (hin : b.InWindowOk)
    (hout : b.OutWindowOk) (hx : rleDecode (b.inWindow turn) = .ok x) :
    rleDecodeBody turn b = b.emit turn x b.inLen := by
  rw [rleDecodeBody, if_pos ⟨hin, hout⟩, hx]

/-- VLQ_DECODE writes no output: it raises an error or sets its three results (41_vlq R165). -/
theorem vlqDecodeBody_raises_or_decodes (turn : Nat) (b : Block) :
    (∃ e, e ≠ .outputOverflow ∧ vlqDecodeBody turn b = b.raise e) ∨
      ∃ r : VlqResult, vlqDecodeBody turn b =
        { b.succeed 0#32 (BitVec.ofNat 32 r.consumed) r.overlong with value := r.value } := by
  unfold vlqDecodeBody
  split
  · split
    · next r _ => exact .inr ⟨r, rfl⟩
    · next e he => exact .inl ⟨e, by rw [vlqDecodeLoop_error he]; decide, rfl⟩
  · exact .inl ⟨.bounds, by decide, rfl⟩

/-- Every other command raises an error or emits an output. -/
theorem commandBody_raises_or_emits {i : Instr} (hi : i ≠ .vlqDecode) (turn : Nat) (b : Block) :
    (∃ e, commandBody i turn b = b.raise e) ∨
      ∃ y consumed, commandBody i turn b = b.emit turn y consumed := by
  by_cases hw : b.UsedWindowsOk i
  case neg => exact .inl ⟨_, commandBody_of_out_of_bounds hw turn⟩
  cases i with
  | rleEncode => exact .inr ⟨_, _, if_pos hw⟩
  | rleDecode =>
    rcases Nat.mod_two_eq_zero_or_one b.inLen.toNat with heven | hodd
    · exact .inr ⟨_, _, rleDecodeBody_of_even hw heven turn⟩
    · exact .inl ⟨_, rleDecodeBody_of_odd hw hodd turn⟩
  | vlqEncode => exact .inr ⟨_, _, if_pos hw⟩
  | vlqDecode => exact absurd rfl hi

@[simp] theorem Block.emit_value (turn : Nat) (y : List Byte) (consumed : Word) (b : Block) :
    (b.emit turn y consumed).value = b.value := by
  unfold Block.emit
  split <;> rfl

@[simp] theorem Block.emit_overlong (turn : Nat) (y : List Byte) (consumed : Word) (b : Block) :
    (b.emit turn y consumed).overlong = false := by
  unfold Block.emit
  split <;> rfl

/-! ### The frame of a command (60_exceptions R202, R210; 20_memory R78) -/

/-- A body writes OBUF and the results only. -/
theorem commandBody_frame (i : Instr) (turn : Nat) (b : Block) :
    commandBody i turn b = { b with
      obuf := (commandBody i turn b).obuf, outLen := (commandBody i turn b).outLen,
      consumed := (commandBody i turn b).consumed, value := (commandBody i turn b).value,
      err := (commandBody i turn b).err, overlong := (commandBody i turn b).overlong } := by
  have effect := commandBody_effect i turn b
  generalize commandBody i turn b = b' at effect ⊢
  cases effect <;> rfl

theorem commandBody_byte_ibuf (i : Instr) (turn : Nat) (b : Block) (j : Nat) :
    (commandBody i turn b).byte .ibuf j = b.byte .ibuf j := by
  rw [commandBody_frame]
  rfl

theorem commandBody_byte_outside {b : Block} {j : Nat} (hj : ¬ b.InOutWindow j) (i : Instr)
    (turn : Nat) : (commandBody i turn b).byte .obuf j = b.byte .obuf j := by
  have effect := commandBody_effect i turn b
  generalize commandBody i turn b = b' at effect ⊢
  cases effect with
  | raised | decoded => rfl
  | overflowed => exact Block.byte_clobberOutput_outside hj turn
  | emitted y consumed _ hfit =>
    exact Block.byte_storeBytes_outside b .obuf .obuf _ j y (.inr (by omega))

theorem vlqDecodeBody_byte_obuf (turn : Nat) (b : Block) (j : Nat) :
    (vlqDecodeBody turn b).byte .obuf j = b.byte .obuf j := by
  rcases vlqDecodeBody_raises_or_decodes turn b with ⟨e, -, h⟩ | ⟨r, h⟩ <;> rw [h] <;> rfl

theorem commandBody_value_overlong {i : Instr} (hi : i ≠ .vlqDecode) (turn : Nat) (b : Block) :
    (commandBody i turn b).value = b.value ∧ (commandBody i turn b).overlong = false := by
  rcases commandBody_raises_or_emits hi turn b with ⟨e, h⟩ | ⟨y, consumed, h⟩
  · rw [h]
    exact ⟨rfl, rfl⟩
  · rw [h]
    exact ⟨Block.emit_value .., Block.emit_overlong ..⟩

/-- A state a command answers is its completion step. -/
theorem eq_complete_of_exec {i : Instr} {s t : State} (h : exec i s = .next t) :
    t = s.complete (commandBody i s.turn) := by
  rw [exec_eq_complete, Host.Outcome.next.injEq] at h
  exact h.symm

/-- VLQ_DECODE never ends with OUTPUT_OVERFLOW, and another command only where its output is longer than
OUT_CAP (60_exceptions R206). -/
theorem output_exceeds_of_err {i : Instr} {turn : Nat} {b : Block} (hw : b.UsedWindowsOk i)
    (herr : (commandBody i turn b).err = 5#4) :
    i = .rleEncode ∧ b.outCap.toNat < (rleEncode (b.inWindow turn)).length ∨
      i = .rleDecode ∧
        (∃ x, rleDecode (b.inWindow turn) = .ok x ∧ b.outCap.toNat < x.length) ∨
      i = .vlqEncode ∧ b.outCap.toNat < (vlqEncode b.value).length := by
  cases i with
  | rleEncode =>
    rw [commandBody, rleEncodeBody_of_inBounds hw.1 hw.2] at herr
    exact .inl ⟨rfl, Block.overflows_of_emit_err herr⟩
  | rleDecode =>
    rcases Nat.mod_two_eq_zero_or_one b.inLen.toNat with heven | hodd
    · rw [commandBody, rleDecodeBody_of_even hw heven] at herr
      exact .inr (.inl ⟨rfl, _, rleDecode_of_even (by rwa [Block.inWindow_length]),
        Block.overflows_of_emit_err herr⟩)
    · rw [commandBody, rleDecodeBody_of_odd hw hodd] at herr
      cases herr
  | vlqEncode =>
    rw [commandBody, vlqEncodeBody_of_inBounds hw] at herr
    exact .inr (.inr ⟨rfl, Block.overflows_of_emit_err herr⟩)
  | vlqDecode =>
    rcases vlqDecodeBody_raises_or_decodes turn b with ⟨e, he, h⟩ | ⟨r, h⟩
    · rw [commandBody, h] at herr
      exact absurd (ErrCode.code_injective (e' := .outputOverflow) herr) he
    · rw [commandBody, h] at herr
      cases herr

/-! ### What a command reads (20_memory R78) -/

/-- The block with other contents in IBUF, another input window and other event bits: what no command
reads but through the bytes of its input window. -/
def Block.withUnread (ibuf : Memory) (inBase inLen : Word) (done wdrop ie : Bool) (b : Block) :
    Block :=
  { b with ibuf := ibuf, inBase := inBase, inLen := inLen, done := done, wdrop := wdrop, ie := ie }

section
variable {b : Block} {turn : Nat} {m : Memory} {p q : Word} {done wdrop ie : Bool}

theorem Block.emit_withUnread (y : List Byte) (consumed : Word) :
    (b.withUnread m p q done wdrop ie).emit turn y consumed =
      (b.emit turn y consumed).withUnread m p q done wdrop ie := by
  by_cases h : b.outCap.toNat < y.length
  · rw [Block.emit_of_overflows h,
      Block.emit_of_overflows (b := b.withUnread m p q done wdrop ie) h]
    rfl
  · have hfits := Nat.not_lt.mp h
    rw [Block.emit_of_fits hfits,
      Block.emit_of_fits (b := b.withUnread m p q done wdrop ie) hfits]
    rfl

theorem commandBody_withUnread_of_out_of_bounds {i : Instr} (hw : ¬ b.UsedWindowsOk i)
    (hw' : ¬ (b.withUnread m p q done wdrop ie).UsedWindowsOk i) :
    commandBody i turn (b.withUnread m p q done wdrop ie) =
      (commandBody i turn b).withUnread m p q done wdrop ie := by
  rw [commandBody_of_out_of_bounds hw, commandBody_of_out_of_bounds hw']
  rfl

/-- VLQ_ENCODE reads no input window at all (41_vlq R164). -/
theorem vlqEncodeBody_withUnread : vlqEncodeBody turn (b.withUnread m p q done wdrop ie) =
    (vlqEncodeBody turn b).withUnread m p q done wdrop ie := by
  by_cases hout : b.OutWindowOk
  · rw [vlqEncodeBody_of_inBounds hout,
      vlqEncodeBody_of_inBounds (b := b.withUnread m p q done wdrop ie) hout]
    exact Block.emit_withUnread _ _
  · exact commandBody_withUnread_of_out_of_bounds (i := .vlqEncode) hout hout

/-- VLQ_DECODE depends on the bytes of its window through what the decoder answers only. -/
theorem vlqDecodeBody_withUnread
    (h : vlqDecode ((b.withUnread m b.inBase b.inLen done wdrop ie).inWindow turn) =
      vlqDecode (b.inWindow turn)) :
    vlqDecodeBody turn (b.withUnread m b.inBase b.inLen done wdrop ie) =
      (vlqDecodeBody turn b).withUnread m b.inBase b.inLen done wdrop ie := by
  by_cases hin : b.InWindowOk
  · refine (if_pos hin).trans ?_
    rw [h, vlqDecodeBody, if_pos hin]
    cases vlqDecode (b.inWindow turn) <;> rfl
  · exact commandBody_withUnread_of_out_of_bounds (i := .vlqDecode) hin hin

/-- A command depends on IBUF through its input window only, and not on the event bits. -/
theorem commandBody_withUnread
    (h : (b.withUnread m b.inBase b.inLen done wdrop ie).inWindow turn = b.inWindow turn)
    (i : Instr) : commandBody i turn (b.withUnread m b.inBase b.inLen done wdrop ie) =
      (commandBody i turn b).withUnread m b.inBase b.inLen done wdrop ie := by
  cases i with
  | rleEncode =>
    by_cases hw : b.InWindowOk ∧ b.OutWindowOk
    · refine (if_pos hw).trans ?_
      rw [h, commandBody, rleEncodeBody_of_inBounds hw.1 hw.2]
      exact Block.emit_withUnread _ _
    · exact commandBody_withUnread_of_out_of_bounds hw hw
  | rleDecode =>
    by_cases hw : b.InWindowOk ∧ b.OutWindowOk
    · refine (if_pos hw).trans ?_
      rw [h, commandBody, rleDecodeBody, if_pos hw]
      cases rleDecode (b.inWindow turn) with
      | ok x => exact Block.emit_withUnread _ _
      | error e => rfl
    · exact commandBody_withUnread_of_out_of_bounds hw hw
  | vlqEncode => exact vlqEncodeBody_withUnread
  | vlqDecode => exact vlqDecodeBody_withUnread (congrArg vlqDecode h)

end

/-- Where the body does not read the input operands, completion steps from states that differ in them alone
differ in them alone. -/
theorem exec_with_input {i : Instr} {s t : State} {m : Memory} {p q : Word}
    (hbody : commandBody i s.turn
        (s.block.withUnread m p q s.block.done s.block.wdrop s.block.ie) =
      (commandBody i s.turn s.block).withUnread m p q s.block.done s.block.wdrop s.block.ie)
    (h : exec i s = .next t) :
    exec i { s with block := { s.block with ibuf := m, inBase := p, inLen := q } } =
      .next { t with block := { t.block with ibuf := m, inBase := p, inLen := q } } := by
  have completed : commandBody i s.turn { s.block with ibuf := m, inBase := p, inLen := q } =
      { commandBody i s.turn s.block with ibuf := m, inBase := p, inLen := q } := by
    refine hbody.trans ?_
    rw [commandBody_frame i s.turn s.block]
    rfl
  rw [eq_complete_of_exec h, exec_eq_complete]
  simp only [State.complete, completed]
  rfl

/-- The same for IBUF alone, as no command changes the input operands. -/
theorem exec_with_ibuf {i : Instr} {s t : State} {m : Memory}
    (hbody : commandBody i s.turn (s.block.withUnread m s.block.inBase s.block.inLen
        s.block.done s.block.wdrop s.block.ie) =
      (commandBody i s.turn s.block).withUnread m s.block.inBase s.block.inLen
        s.block.done s.block.wdrop s.block.ie)
    (h : exec i s = .next t) :
    exec i { s with block := { s.block with ibuf := m } } =
      .next { t with block := { t.block with ibuf := m } } := by
  refine (exec_with_input hbody h).trans ?_
  rw [eq_complete_of_exec h, State.complete, commandBody_frame i s.turn s.block]
  rfl

theorem Block.engineByte_congr {b b' : Block} {j : Nat}
    (h : b'.ibuf.lookup j = b.ibuf.lookup j) (turn : Nat) :
    b'.engineByte turn j = b.engineByte turn j := by
  rw [Block.engineByte, Block.engineByte, h]

/-- Windows whose first `n` bytes are written alike agree on the first `n` bytes the engine reads. -/
theorem Block.inWindow_take_congr {b b' : Block} {n : Nat} (hbase : b'.inBase = b.inBase)
    (hlen : b'.inLen = b.inLen) (h : ∀ k, k < n →
      b'.ibuf.lookup (b.inBase.toNat + k) = b.ibuf.lookup (b.inBase.toNat + k)) (turn : Nat) :
    (b'.inWindow turn).take n = (b.inWindow turn).take n := by
  rw [Block.inWindow, Block.inWindow, hbase, hlen, ← List.map_take, ← List.map_take]
  refine List.map_congr_left fun k hk => Block.engineByte_congr (h k ?_) turn
  rw [List.take_range, List.mem_range] at hk
  omega

/-- The decoder's answer is in any front part of its input that holds a terminating byte. -/
theorem vlqDecode_append_of_terminated {y : List Byte} (h : ∃ x ∈ y, x.getLsbD 7 = false)
    (z : List Byte) : vlqDecode (y ++ z) = vlqDecode y := by
  rcases unterminated_or_split y with hy | ⟨pre, last, rest, rfl, hpre, hlast⟩
  · obtain ⟨x, hx, hclear⟩ := h
    exact absurd (hy x hx) (by rw [hclear]; decide)
  · rw [List.append_assoc (pre ++ [last]), vlqDecode_terminated hpre hlast,
      vlqDecode_terminated hpre hlast]

theorem vlqDecode_congr_of_take {y z : List Byte} {n : Nat} (htake : y.take n = z.take n)
    (h : ∃ x ∈ z.take n, x.getLsbD 7 = false) : vlqDecode y = vlqDecode z := by
  rw [← List.take_append_drop n y, ← List.take_append_drop n z, htake,
    vlqDecode_append_of_terminated h, vlqDecode_append_of_terminated h]

theorem Block.inWindow_getElem (turn : Nat) (b : Block) (k : Nat)
    (h : k < (b.inWindow turn).length) :
    (b.inWindow turn)[k] = b.engineByte turn (b.inBase.toNat + k) := by
  simp [Block.inWindow]

/-! ### The command-level round trip of VLQ -/

/-- VLQ_ENCODE ends with ERR = 0 only where its window is in bounds and the encoding fits. -/
theorem vlqEncode_operands_of_err {turn : Nat} {b : Block} (h : (vlqEncodeBody turn b).err = 0#4) :
    b.OutWindowOk ∧ (vlqEncode b.value).length ≤ b.outCap.toNat := by
  unfold vlqEncodeBody at h
  split at h
  · next hw => exact ⟨hw, Block.fits_of_emit_err h⟩
  · cases h

theorem vlqEncode_outputCompletion {s : State} (hout : s.block.OutWindowOk)
    (hfits : (vlqEncode s.block.value).length ≤ s.block.outCap.toNat) :
    OutputCompletion s (s.complete (vlqEncodeBody s.turn)) (vlqEncode s.block.value) 0#32 :=
  outputCompletion_of_emit (vlqEncodeBody_of_inBounds hout s.turn) hfits

/-- The engine reads the bytes written at the front of its input window, and then what follows. -/
theorem Block.inWindow_eq_append_of_lookup {b : Block} {y : List Byte} (turn : Nat)
    (hlen : y.length ≤ b.inLen.toNat)
    (h : ∀ (k : Nat) (hk : k < y.length), b.ibuf.lookup (b.inBase.toNat + k) = some y[k]) :
    ∃ z, b.inWindow turn = y ++ z := by
  have front : (b.inWindow turn).take y.length = y := by
    refine List.ext_getElem (by simpa using hlen) fun k _ hk => ?_
    rw [List.getElem_take, Block.inWindow_getElem, Block.engineByte, h k hk, Option.getD_some]
  refine ⟨(b.inWindow turn).drop y.length, ?_⟩
  conv_rhs => rw [← front, List.length_take_of_le (by simpa using hlen)]
  rw [List.take_append_drop]

theorem exec_vlqDecode_of_ok {s : State} {r : VlqResult} (hin : s.block.InWindowOk)
    (hr : vlqDecode (s.block.inWindow s.turn) = .ok r) :
    exec .vlqDecode s = .next { s with block := { s.block with
      value := r.value, consumed := BitVec.ofNat 32 r.consumed, outLen := 0#32, err := 0#4,
      overlong := r.overlong, fsm := .idle, done := true } } := by
  rw [exec_eq_complete]
  simp only [State.complete, commandBody, vlqDecodeBody_of_ok hin hr]
  rfl

/-! ### The statements -/

/-- Settles O22, by induction on the input with any count of the current byte. -/
theorem rleOnePassDesignIsEquivalent : Obligations.RleOnePassDesignIsEquivalent := by
  intro x
  cases x with
  | nil => rfl
  | cons x xs =>
    rw [rleEncodeOnePass, rleScan_eq_rleEncode (Nat.le_refl 1) (by decide), List.replicate_one,
      List.singleton_append]

/-- Settles O27, by the completion of a command whose output fits. -/
theorem rleEncodeWritesTheEncoding : Obligations.RleEncodeWritesTheEncoding :=
  fun s hin hout hfits =>
    ⟨_, exec_eq_complete .rleEncode s, rleEncode_outputCompletion hin hout hfits⟩

/-- Settles O28, by the completion of a command whose output fits; that the decoder answers at all already
says that IN_LEN is even. -/
theorem rleDecodeWritesTheExpansion : Obligations.RleDecodeWritesTheExpansion :=
  fun s _ hin hout _ hx hfits =>
    ⟨_, exec_eq_complete .rleDecode s, rleDecode_outputCompletion hin hout hx hfits⟩

/-- Settles O29, by the completion of a command whose output fits. -/
theorem vlqEncodeWritesTheEncoding : Obligations.VlqEncodeWritesTheEncoding :=
  fun s hout hfits => ⟨_, exec_eq_complete .vlqEncode s, vlqEncode_outputCompletion hout hfits⟩

/-- Settles O30: the decoder answers at the first terminating byte. -/
theorem vlqDecodeSetsValue : Obligations.VlqDecodeSetsValue := by
  intro s hin hterminated
  rcases unterminated_or_split (s.block.inWindow s.turn) with
    hy | ⟨pre, last, rest, hy, hpre, hlast⟩
  · obtain ⟨x, hx, hclear⟩ := hterminated
    exact absurd (hy x hx) (by rw [hclear]; decide)
  · have hr := vlqDecode_terminated hpre hlast rest
    rw [← hy] at hr
    exact ⟨_, hr, exec_vlqDecode_of_ok hin hr, Block.consumed_of_vlqDecode hr⟩

/-- Settles O34: an output longer than OUT_CAP overflows, and no other end of a command has code 5. -/
theorem outputOverflowClobbersTheWindow : Obligations.OutputOverflowClobbersTheWindow := by
  refine fun s => ⟨fun hout => ⟨fun hin hover => ?encode, fun x hin hx hover => ?decode,
    fun hover => ?vlq⟩, fun i t h herr => ?only⟩
  case encode =>
    exact ⟨_, exec_eq_complete .rleEncode s,
      overflowCompletion_of_emit (rleEncodeBody_of_inBounds hin hout s.turn) hover⟩
  case decode =>
    exact ⟨_, exec_eq_complete .rleDecode s,
      overflowCompletion_of_emit (rleDecodeBody_of_ok hin hout hx) hover⟩
  case vlq =>
    exact ⟨_, exec_eq_complete .vlqEncode s,
      overflowCompletion_of_emit (vlqEncodeBody_of_inBounds hout s.turn) hover⟩
  case only =>
    cases exec_endsWith (e := .outputOverflow) h herr with
    | accepted _ _ hw _ =>
      rw [eq_complete_of_exec h] at herr
      rcases output_exceeds_of_err hw herr with ⟨rfl, hover⟩ | ⟨rfl, hover⟩ | ⟨rfl, hover⟩
      · exact ⟨hw.2, .inl ⟨rfl, hw.1, hover⟩⟩
      · exact ⟨hw.2, .inr (.inl ⟨rfl, hw.1, hover⟩)⟩
      · exact ⟨hw, .inr (.inr ⟨rfl, hover⟩)⟩

/-- Settles O35, by the ends of a command: of the four, two are errors. -/
theorem commandErrorsChangeOnlyResults : Obligations.CommandErrorsChangeOnlyResults := by
  intro i s t h herr
  rw [eq_complete_of_exec h] at herr ⊢
  have effect := commandBody_effect i s.turn s.block
  simp only [State.complete] at herr ⊢
  generalize commandBody i s.turn s.block = b' at effect herr ⊢
  cases effect with
  | raised e he =>
    refine ⟨rfl, ?_, fun _ => rfl⟩
    rcases he with rfl | rfl | rfl <;> simp [ErrCode.code]
  | overflowed => exact ⟨rfl, by simp [ErrCode.code], fun hne => absurd rfl hne⟩
  | emitted | decoded => exact absurd rfl herr

/-- Settles O36, by the frame of the bodies. -/
theorem everyCommandCompletesWithinItsFrame : Obligations.EveryCommandCompletesWithinItsFrame := by
  intro i s
  refine ⟨_, exec_eq_complete i s, ?frame, commandBody_byte_ibuf i s.turn s.block,
    fun j hj => ?outside, fun hi => commandBody_value_overlong hi s.turn s.block⟩
  case frame =>
    simp only [State.complete]
    rw [commandBody_frame i s.turn s.block]
    rfl
  case outside =>
    rcases hj with rfl | hj
    · exact vlqDecodeBody_byte_obuf s.turn s.block j
    · exact commandBody_byte_outside hj i s.turn

/-- Settles O37: equal windows give equal completions, and VLQ_ENCODE reads none. -/
theorem commandsReadOnlyTheirInputWindow : Obligations.CommandsReadOnlyTheirInputWindow := by
  refine ⟨fun i s t m hm h => exec_with_ibuf (commandBody_withUnread ?window i) h,
    fun s t m x y h => exec_with_input vlqEncodeBody_withUnread h⟩
  refine List.map_congr_left fun k hk => Block.engineByte_congr ?_ s.turn
  have hk : k < s.block.inLen.toNat := List.mem_range.mp hk
  exact hm _ (Nat.le_add_right _ k) (Nat.add_lt_add_left hk _)

/-- Settles O38: the decoder's answer is in the window up to the terminating byte. -/
theorem vlqDecodeStopsAtTerminator : Obligations.VlqDecodeStopsAtTerminator := by
  intro s t m k _ hk hclear hm h
  have sameFront := Block.inWindow_take_congr (b := s.block)
    (b' := s.block.withUnread m s.block.inBase s.block.inLen s.block.done s.block.wdrop s.block.ie)
    (n := k + 1) rfl rfl
    (fun j hj => hm _ (Nat.le_add_right _ j) (Nat.add_le_add_left (Nat.le_of_lt_succ hj) _)) s.turn
  have hk' : k < (s.block.inWindow s.turn).length := by rwa [Block.inWindow_length]
  have terminator : s.block.engineByte s.turn (s.block.inBase.toNat + k) ∈
      (s.block.inWindow s.turn).take (k + 1) := by
    rw [← Block.inWindow_getElem s.turn s.block k hk']
    exact List.mem_take_iff_getElem.mpr ⟨k, by omega, rfl⟩
  exact exec_with_ibuf (i := .vlqDecode)
    (vlqDecodeBody_withUnread (vlqDecode_congr_of_take sameFront ⟨_, terminator, hclear⟩)) h

/-- Settles O41: VLQ_DECODE's input window begins with the encoding that VLQ_ENCODE wrote, which the
round trip of the functions turns back into VALUE. -/
theorem vlqCommandRoundTrip : Obligations.VlqCommandRoundTrip := by
  rintro s t u p hexec herr hcopied rfl hinLen hin
  obtain rfl := eq_complete_of_exec hexec
  obtain ⟨hout, hfits⟩ := vlqEncode_operands_of_err herr
  have encoded := vlqEncode_outputCompletion hout hfits
  have hlen := encoded.outLen
  obtain ⟨z, copied⟩ : ∃ z, u.block.inWindow u.turn = vlqEncode s.block.value ++ z := by
    refine Block.inWindow_eq_append_of_lookup u.turn (hlen ▸ hinLen) fun k hk => ?_
    rw [← encoded.written k hk]
    exact hcopied k (hk.trans_eq hlen.symm)
  refine ⟨_, exec_vlqDecode_of_ok hin (by rw [copied, vlqDecode_vlqEncode_append]), rfl, rfl, ?_,
    rfl⟩
  apply BitVec.eq_of_toNat_eq
  rw [toNat_outLen_of_fits hfits]
  exact hlen.symm

end Sys2Proof.Machine
end

section
/-! SUPPORT. Registers and reads: CTRL and the operand registers (10_state R29 to R36), what a read depends
on (20_memory R69, R71), and the block right after reset (10_state R45). -/

namespace Sys2Proof.Machine

/-! ### CTRL and STATUS as read -/

theorem Block.ctrlWord_ie (b : Block) : b.ctrlWord.getLsbD 0 = b.ie := by
  rw [Block.ctrlWord]
  cases b.ie <;> rfl

theorem Block.ctrlWord_reserved (b : Block) : b.ctrlWord.extractLsb' 1 31 = 0#31 := by
  rw [Block.ctrlWord]
  cases b.ie <;> rfl

/-- STATUS of a busy block under the invariant: BUSY, and WDROP as it stands (20_memory R71). -/
theorem Block.statusWord_of_busy {b : Block} (h : b.Inv) (hf : b.fsm = .busy) :
    b.statusWord = if b.wdrop then 0x5#32 else 0x1#32 := by
  obtain ⟨done, err, overlong⟩ := h.busyClean hf
  rw [Block.statusWord, done, err, overlong, b.busy_eq_true.mpr hf]
  cases b.wdrop <;> rfl

/-! ### Reads of a busy block (20_memory R71) -/

/-- The registers whose values are open while the engine is busy (20_memory R71). -/
abbrev Reg.HiddenWhileBusy (r : Reg) : Prop := r = .outLen ∨ r = .consumed ∨ r = .value

theorem Block.readReg_of_hidden {b : Block} {r : Reg} (hf : b.fsm = .busy)
    (hr : r.HiddenWhileBusy) (turn : Nat) : b.readReg turn r = Config.busyReadWord turn := by
  rcases hr with rfl | rfl | rfl <;> rw [Block.readReg, if_pos hf]

theorem Block.readByte_of_hidden {b : Block} {i : Nat} (hrun : b.RunsOutputCommand)
    (hi : b.InOutWindow i) (turn : Nat) :
    b.readByte turn .obuf i = Config.busyReadByte turn i := if_pos ⟨rfl, hrun, hi⟩

theorem Block.readByte_ibuf (turn : Nat) (b : Block) (i : Nat) :
    b.readByte turn .ibuf i = b.byte .ibuf i := if_neg nofun

theorem Block.readByte_of_visible {b : Block} {i : Nat}
    (h : b.RunsOutputCommand → ¬ b.InOutWindow i) (turn : Nat) (which : Buffer) :
    b.readByte turn which i = b.byte which i := if_neg fun hc => h hc.2.1 hc.2.2

/-- The commands with an output window, as a list of OP values (20_memory R71). -/
theorem Block.runsOutputCommand_iff {b : Block} (hf : b.fsm = .busy) :
    b.RunsOutputCommand ↔ b.latchedOp ∈ [0x1#4, 0x2#4, 0x3#4] := by
  simp [Block.RunsOutputCommand, hf]

/-! ### Reads that no turn changes (20_memory R69) -/

theorem Block.readReg_turn {b : Block} {r : Reg} (h : b.fsm = .idle ∨ ¬ r.HiddenWhileBusy)
    (turn turn' : Nat) : b.readReg turn r = b.readReg turn' r := by
  rcases h with hf | hr
  · cases r <;> simp [Block.readReg, hf]
  · cases r with
    | outLen | consumed | value => exact absurd (by decide) hr
    | _ => rfl

/-- A byte reads the same at any two turns unless it lies in the window of a running output command. -/
theorem Block.readBytes_turn {b : Block} {which : Buffer} {i n : Nat}
    (h : b.RunsOutputCommand → which = .obuf → ∀ k, k < n → ¬ b.InOutWindow (i + k))
    (turn turn' : Nat) : b.readBytes turn which i n = b.readBytes turn' which i n := by
  refine List.map_congr_left fun k hk => ?_
  have visible := fun hrun hwhich => h hrun hwhich k (List.mem_range.mp hk)
  cases which with
  | ibuf => rw [Block.readByte_ibuf, Block.readByte_ibuf]
  | obuf =>
    rw [Block.readByte_of_visible (fun hrun => visible hrun rfl),
      Block.readByte_of_visible (fun hrun => visible hrun rfl)]

/-! ### The host's reads -/

/-- A read statement whose transaction answers OK keeps the value and goes on (30_encoding R100). -/
theorem State.hostRead_of_busRead {s : State} {n : Size} {t : Temp} {a : Offset} {v : Word}
    (h : s.block.busRead s.turn a n = some v) : s.hostRead n t a = s.setTempNext t v := by
  rw [State.hostRead, h]

theorem State.hostRead_of_error {s : State} {n : Size} {t : Temp} {a : Offset}
    (h : s.block.busRead s.turn a n = none) :
    s.hostRead n t a = s.endHost (.faulted .busError) := by
  rw [State.hostRead, h]

theorem State.hostWrite_of_error {s : State} {n : Size} {a : Offset} {v : Word}
    (h : s.block.busWrite a n v = none) :
    s.hostWrite n a v = s.endHost (.faulted .busError) := by
  rw [State.hostWrite, h]

@[simp] theorem State.hostRead_block (s : State) (n : Size) (t : Temp) (a : Offset) :
    (s.hostRead n t a).block = s.block := by
  unfold State.hostRead
  split <;> rfl

/-! ### The statements -/

/-- Settles O2, by evaluation of the decoder on the four words. -/
theorem writtenWordsDecode : Obligations.WrittenWordsDecode := ⟨rfl, rfl, rfl, rfl⟩

/-- Settles O6, by what the bus does at the offset of CTRL. -/
theorem ctrlHoldsInterruptEnableOnly : Obligations.CtrlHoldsInterruptEnableOnly :=
  fun turn b w => ⟨Block.busWrite_offset b .ctrl w, _, Block.busRead_offset turn b .ctrl,
    b.ctrlWord_ie, b.ctrlWord_reserved⟩

/-- Settles O7: at IDLE each write is the register's update, and the read at the same offset finds it. -/
theorem operandRegistersHoldWhatIsWritten : Obligations.OperandRegistersHoldWhatIsWritten := by
  intro turn b v hf
  have written (r : Reg) (update : Block → Block)
      (hr : b.writeReg v r = b.writeOperand update) :
      b.busWrite r.offset .four v = some (update b) := by
    rw [Block.busWrite_offset, hr, Block.writeOperand_of_idle hf]
  have notBusy : b.fsm ≠ .busy := by simp [hf]
  exact ⟨⟨written .inBase (fun b => { b with inBase := v }) rfl,
      Block.busRead_offset turn _ .inBase⟩,
    ⟨written .inLen (fun b => { b with inLen := v }) rfl, Block.busRead_offset turn _ .inLen⟩,
    ⟨written .outBase (fun b => { b with outBase := v }) rfl, Block.busRead_offset turn _ .outBase⟩,
    ⟨written .outCap (fun b => { b with outCap := v }) rfl, Block.busRead_offset turn _ .outCap⟩,
    ⟨written .value (fun b => { b with value := v }) rfl,
      (Block.busRead_offset turn _ .value).trans (congrArg some (if_neg notBusy))⟩⟩

/-- Settles O12: the block stays, as the bus answers no block, and the host's turn ends its program. -/
theorem busErrorEndsTheHostProgram : Obligations.BusErrorEndsTheHostProgram := by
  rintro s n a (⟨v, hw, herr⟩ | ⟨t, hr, herr⟩)
  · exact (step_of_writes hw).trans (congrArg _ (State.hostWrite_of_error herr))
  · exact (step_of_reads hr).trans (congrArg _ (State.hostRead_of_error herr))

/-- Settles O15, by what a read reaches: nothing, a register, or bytes of a buffer. -/
theorem readsHaveNoSideEffect : Obligations.ReadsHaveNoSideEffect := by
  refine ⟨fun s t n d a hr h => ?block, fun turn turn' b a n h => ?idempotent⟩
  case block =>
    rw [step_of_reads hr, Host.Outcome.next.injEq] at h
    rw [← h, State.hostRead_block, State.takeTurn_block]
  case idempotent =>
    unfold Block.busRead
    cases htarget : b.target a n with
    | none => rfl
    | some target =>
      cases target with
      | reg r =>
        obtain ⟨rfl, -⟩ := Block.target_reg htarget
        refine congrArg some (Block.readReg_turn (h.imp_right ?_) turn turn')
        rintro ⟨houtLen, hconsumed, hvalue, -⟩ (rfl | rfl | rfl)
        · exact houtLen rfl
        · exact hconsumed rfl
        · exact hvalue rfl
      | buffer which i =>
        obtain ⟨ha, -, -⟩ := Block.target_index htarget
        refine congrArg (fun bytes => some (BitVec.ofNat 32 (leNat bytes)))
          (Block.readBytes_turn ?_ turn turn')
        rintro hrun rfl k hk
        rw [windowBase] at ha
        rcases h with hf | ⟨-, -, -, hwindow⟩
        · exact absurd hrun.1 (by simp [hf])
        · rcases hwindow hrun k hk with hlt | hout
          · omega
          · rwa [ha, Nat.add_sub_cancel_left] at hout

/-- Settles O17, by the reads of a busy block that are open, and those that are not. -/
theorem busyReadsHideResults : Obligations.BusyReadsHideResults := by
  intro turn b hf
  refine ⟨fun r hr x y z => ?results, fun i m hop hi => ?window, Block.readByte_ibuf turn b,
    fun i h => ?visible, ⟨Block.busRead_offset turn b .cmd, Block.busRead_offset turn b .inBase,
      Block.busRead_offset turn b .inLen, Block.busRead_offset turn b .outBase,
      Block.busRead_offset turn b .outCap⟩, fun hinv => ?status⟩
  case results =>
    rw [Block.busRead_offset, Block.busRead_offset, Block.readReg_of_hidden hf hr]
    exact ⟨congrArg some (Block.readReg_of_hidden
      (b := { b with outLen := x, consumed := y, value := z }) hf hr turn), rfl⟩
  case window =>
    have hrun := (Block.runsOutputCommand_iff hf).mpr hop
    rw [Block.readByte_of_hidden hrun hi]
    exact Block.readByte_of_hidden (b := { b with obuf := m }) hrun hi turn
  case visible =>
    refine Block.readByte_of_visible (fun hrun => h.resolve_left ?_) turn .obuf
    exact not_not_intro ((Block.runsOutputCommand_iff hf).mp hrun)
  case status =>
    rw [Block.busRead_offset, Block.readReg, Block.statusWord_of_busy hinv hf]

/-- Settles O47, by the reset state's fields. -/
theorem resetStateHoldsTheTable : Obligations.ResetStateHoldsTheTable :=
  ⟨rfl, Block.reset_statusWord Config.default 0, rfl, rfl, rfl, rfl, rfl, rfl, rfl, rfl, rfl, rfl, rfl,
    Memory.lookup_nil, Memory.lookup_nil⟩

end Sys2Proof.Machine
end

section
/-! SUPPORT. The host's statements one by one (30_encoding R100), the issue of a command and the engine's
turn (30_encoding R92, 60_exceptions R210), reset (70_reset R230), and that an idle block does not show
LATCHED_OP (10_state R41). -/

namespace Sys2Proof.Machine

/-! ### Statements that read temporaries (30_encoding R100) -/

theorem State.withTemp_of_written {s : State} {t : Temp} {v : Word} (h : s.host.temp t = some v)
    (k : Word → State) : s.withTemp t k = k v := by
  rw [State.withTemp, h]

theorem State.withTemp_of_unwritten {s : State} {t : Temp} (h : s.host.temp t = none)
    (k : Word → State) : s.withTemp t k = s.endHost (.faulted .unwrittenTemp) := by
  rw [State.withTemp, h]

/-- The second operand of a statement is read after the first, whatever the first holds. -/
theorem State.withTemp_withTemp_of_unwritten {s : State} {m : Temp} (h : s.host.temp m = none)
    (t : Temp) (k : Word → Word → State) :
    (s.withTemp t fun v => s.withTemp m (k v)) = s.endHost (.faulted .unwrittenTemp) := by
  cases ht : s.host.temp t with
  | none => exact State.withTemp_of_unwritten ht _
  | some v => exact (State.withTemp_of_written ht _).trans (State.withTemp_of_unwritten h _)

/-- The statements that read temporary `m`. -/
abbrev Stmt.Reads (st : Stmt) (m : Temp) : Prop :=
  (∃ n a, st = .wrT n a m) ∨ (∃ t imm, st = .andi t m imm) ∨ (∃ t imm, st = .srli t m imm) ∨
    (∃ t k, st = .add t m k ∨ st = .add t k m ∨ st = .sub t m k ∨ st = .sub t k m) ∨
    (∃ target, st = .bnz m target ∨ st = .bz m target)

/-- A statement that reads an unwritten temporary ends the host program (93 I16). -/
theorem Stmt.run_of_unwritten {st : Stmt} {m : Temp} {s : State} (hr : st.Reads m)
    (h : s.host.temp m = none) : st.run s = s.endHost (.faulted .unwrittenTemp) := by
  have first := State.withTemp_of_unwritten h
  have second := State.withTemp_withTemp_of_unwritten h
  rcases hr with ⟨n, a, rfl⟩ | ⟨t, imm, rfl⟩ | ⟨t, imm, rfl⟩ | ⟨t, k, hop⟩ | ⟨target, hbranch⟩
  · exact first _
  · exact first _
  · exact first _
  · rcases hop with rfl | rfl | rfl | rfl
    · exact first _
    · exact second k _
    · exact first _
    · exact second k _
  · rcases hbranch with rfl | rfl
    · exact first _
    · exact first _

theorem step_of_runs_withTemp {s : State} {st : Stmt} {m : Temp} {v : Word} {k : Word → State}
    (hst : s.RunsStatement st) (hrun : st.run s.takeTurn = s.takeTurn.withTemp m k)
    (hv : s.host.temp m = some v) : step s = .next (k v) := by
  rw [step_of_runs hst, hrun]
  exact congrArg _ (State.withTemp_of_written (s := s.takeTurn) hv k)

/-- A branch moves the index only. -/
theorem State.branch_eq (s : State) (taken : Bool) (target : Nat) :
    s.branch taken target =
      { s with host := { s.host with index := if taken then target else s.host.index + 1 } } := by
  cases taken <;> rfl

/-! ### Word arithmetic as 30_encoding R100 writes it -/

theorem ushiftRight_eq_ofNat_div (v : Word) (n : Nat) :
    v >>> n = BitVec.ofNat 32 (v.toNat / 2 ^ n) := by
  apply BitVec.eq_of_toNat_eq
  have := Nat.div_le_self v.toNat (2 ^ n)
  have := v.isLt
  rw [BitVec.toNat_ushiftRight, Nat.shiftRight_eq_div_pow, BitVec.toNat_ofNat,
    Nat.mod_eq_of_lt (by omega)]

theorem add_eq_ofNat_mod (v w : Word) :
    v + w = BitVec.ofNat 32 ((v.toNat + w.toNat) % 2 ^ 32) := by
  apply BitVec.eq_of_toNat_eq
  rw [BitVec.toNat_add, BitVec.toNat_ofNat, Nat.mod_mod]

theorem sub_eq_ofInt_emod (v w : Word) :
    v - w = BitVec.ofInt 32 ((v.toNat - w.toNat : Int) % 2 ^ 32) := by
  apply BitVec.eq_of_toNat_eq
  rw [BitVec.toNat_sub, BitVec.toNat_ofInt]
  have := v.isLt
  have := w.isLt
  omega

/-! ### What an idle block shows of LATCHED_OP (10_state R41) -/

/-- The state with another value in LATCHED_OP. -/
def Block.withLatchedOp (op : BitVec 4) (b : Block) : Block := { b with latchedOp := op }

def State.withLatchedOp (op : BitVec 4) (s : State) : State :=
  { s with block := s.block.withLatchedOp op }

@[simp] theorem Block.withLatchedOp_fsm (op : BitVec 4) (b : Block) :
    (b.withLatchedOp op).fsm = b.fsm := rfl

@[simp] theorem State.withLatchedOp_host (op : BitVec 4) (s : State) :
    (s.withLatchedOp op).host = s.host := rfl

/-- `b'` is `b` but for a value of LATCHED_OP that only an idle block may have otherwise. -/
def Block.SameButHiddenOp (b' b : Block) : Prop :=
  b'.withLatchedOp b.latchedOp = b ∧ (b.fsm = .busy → b' = b)

def State.SameButHiddenOp (s' s : State) : Prop :=
  s'.withLatchedOp s.block.latchedOp = s ∧ (s.block.fsm = .busy → s' = s)

theorem Block.sameButHiddenOp_refl (b : Block) : b.SameButHiddenOp b := ⟨rfl, fun _ => rfl⟩

theorem Block.sameButHiddenOp_of_idle {b' b : Block} (h : b'.withLatchedOp b.latchedOp = b)
    (hf : b.fsm = .idle) : b'.SameButHiddenOp b :=
  ⟨h, fun hbusy => absurd (hf.symm.trans hbusy) nofun⟩

section
variable {b : Block} (op : BitVec 4)

@[simp] theorem Block.target_withLatchedOp (a : Offset) (n : Size) :
    (b.withLatchedOp op).target a n = b.target a n := rfl

/-- No read of an idle block depends on LATCHED_OP. -/
theorem Block.busRead_withLatchedOp (hf : b.fsm = .idle) (turn : Nat) (a : Offset) (n : Size) :
    (b.withLatchedOp op).busRead turn a n = b.busRead turn a n := by
  have bytes (which : Buffer) (i : Nat) : (b.withLatchedOp op).readBytes turn which i n.bytes =
      b.readBytes turn which i n.bytes := by
    refine List.map_congr_left fun k _ => ?_
    rw [Block.readByte_of_idle hf, Block.readByte_of_idle (b := b.withLatchedOp op) hf]
    cases which <;> rfl
  unfold Block.busRead
  rw [Block.target_withLatchedOp]
  cases b.target a n with
  | none => rfl
  | some target =>
    cases target with
    | reg r => cases r <;> rfl
    | buffer which i => exact congrArg (fun xs => some (BitVec.ofNat 32 (leNat xs))) (bytes which i)

/-- A register write to an idle block overwrites LATCHED_OP, by an issue, or leaves the block idle. -/
theorem Block.writeReg_withLatchedOp (hf : b.fsm = .idle) (v : Word) (r : Reg) :
    ((b.withLatchedOp op).writeReg v r).SameButHiddenOp (b.writeReg v r) := by
  have hf' : (b.withLatchedOp op).fsm = .idle := hf
  have operand (update : Block → Block)
      (hu : (update (b.withLatchedOp op)).SameButHiddenOp (update b)) :
      ((b.withLatchedOp op).writeOperand update).SameButHiddenOp (b.writeOperand update) := by
    rwa [Block.writeOperand_of_idle hf, Block.writeOperand_of_idle hf']
  cases r with
  | cmd =>
    by_cases hw : ∃ i, decode v = .ok i
    · rw [Block.writeReg, Block.writeReg, Block.writeCmd_of_decodes hf hw,
        Block.writeCmd_of_decodes hf' hw]
      exact Block.sameButHiddenOp_refl _
    · rw [Block.writeReg, Block.writeReg, Block.writeCmd_of_not_decodes hf hw,
        Block.writeCmd_of_not_decodes hf' hw]
      exact Block.sameButHiddenOp_of_idle rfl hf
  | inBase | inLen | outBase | outCap | value =>
    exact operand _ (Block.sameButHiddenOp_of_idle rfl hf)
  | _ => exact Block.sameButHiddenOp_of_idle rfl hf

/-- A bus write to an idle block answers alike whatever LATCHED_OP holds. -/
theorem Block.busWrite_withLatchedOp (hf : b.fsm = .idle) (a : Offset) (n : Size) (v : Word) :
    Option.Rel Block.SameButHiddenOp ((b.withLatchedOp op).busWrite a n v) (b.busWrite a n v) := by
  unfold Block.busWrite
  rw [Block.target_withLatchedOp]
  cases b.target a n with
  | none => exact .none
  | some target =>
    cases target with
    | reg r => exact .some (Block.writeReg_withLatchedOp op hf v r)
    | buffer which i =>
      refine .some ?_
      rw [Block.writeBuffer, Block.writeBuffer, Block.withLatchedOp_fsm, hf]
      cases which <;> exact Block.sameButHiddenOp_of_idle rfl hf

end

section
variable {s : State} (op : BitVec 4)

/-- What changes the host only leaves the block idle. -/
theorem State.sameButHiddenOp_with_host (hf : s.block.fsm = .idle) (h : HostAgent) :
    State.SameButHiddenOp { s.withLatchedOp op with host := h } { s with host := h } :=
  ⟨rfl, fun hbusy => absurd (hf.symm.trans hbusy) nofun⟩

theorem State.withTemp_withLatchedOp (hf : s.block.fsm = .idle) (t : Temp) {k k' : Word → State}
    (h : ∀ v, (k' v).SameButHiddenOp (k v)) :
    ((s.withLatchedOp op).withTemp t k').SameButHiddenOp (s.withTemp t k) := by
  cases ht : s.host.temp t with
  | none =>
    rw [State.withTemp_of_unwritten ht, State.withTemp_of_unwritten (s := s.withLatchedOp op) ht]
    exact State.sameButHiddenOp_with_host op hf _
  | some v =>
    rw [State.withTemp_of_written ht, State.withTemp_of_written (s := s.withLatchedOp op) ht]
    exact h v

theorem State.hostRead_withLatchedOp (hf : s.block.fsm = .idle) (n : Size) (t : Temp) (a : Offset) :
    ((s.withLatchedOp op).hostRead n t a).SameButHiddenOp (s.hostRead n t a) := by
  have read := Block.busRead_withLatchedOp op hf s.turn a n
  cases hv : s.block.busRead s.turn a n with
  | none =>
    rw [State.hostRead_of_error hv,
      State.hostRead_of_error (s := s.withLatchedOp op) (read.trans hv)]
    exact State.sameButHiddenOp_with_host op hf _
  | some v =>
    rw [State.hostRead_of_busRead hv,
      State.hostRead_of_busRead (s := s.withLatchedOp op) (read.trans hv)]
    exact State.sameButHiddenOp_with_host op hf _

theorem State.hostWrite_withLatchedOp (hf : s.block.fsm = .idle) (n : Size) (a : Offset)
    (v : Word) :
    ((s.withLatchedOp op).hostWrite n a v).SameButHiddenOp (s.hostWrite n a v) := by
  have write := Block.busWrite_withLatchedOp op hf a n v
  generalize hb' : (s.block.withLatchedOp op).busWrite a n v = ob' at write
  generalize hb : s.block.busWrite a n v = ob at write
  cases write with
  | none =>
    rw [State.hostWrite_of_error hb, State.hostWrite_of_error (s := s.withLatchedOp op) hb']
    exact State.sameButHiddenOp_with_host op hf _
  | some same =>
    rw [State.hostWrite_of_busWrite hb, State.hostWrite_of_busWrite (s := s.withLatchedOp op) hb']
    exact ⟨congrArg (fun b => { s with block := b, host := s.host.next }) same.1,
      fun hbusy => congrArg (fun b => { s with block := b, host := s.host.next }) (same.2 hbusy)⟩

/-- No statement depends on LATCHED_OP of an idle block. -/
theorem Stmt.run_withLatchedOp (hf : s.block.fsm = .idle) (st : Stmt) :
    (st.run (s.withLatchedOp op)).SameButHiddenOp (st.run s) := by
  have host := State.sameButHiddenOp_with_host op hf
  cases st with
  | wr32 | wr16 | wr8 => exact State.hostWrite_withLatchedOp op hf _ _ _
  | rd32 | rd16 | rd8 => exact State.hostRead_withLatchedOp op hf _ _ _
  | wrT n a k =>
    exact State.withTemp_withLatchedOp op hf k fun v => State.hostWrite_withLatchedOp op hf n a v
  | li | b | halt => exact host _
  | andi t m | srli t m => exact State.withTemp_withLatchedOp op hf m fun v => host _
  | add t m k | sub t m k =>
    exact State.withTemp_withLatchedOp op hf m fun v =>
      State.withTemp_withLatchedOp op hf k fun w => host _
  | bnz m target | bz m target => exact State.withTemp_withLatchedOp op hf m fun v => host _

theorem State.hostStep_withLatchedOp (hf : s.block.fsm = .idle) :
    (s.withLatchedOp op).hostStep.SameButHiddenOp s.hostStep := by
  have host := State.sameButHiddenOp_with_host op hf
  unfold State.hostStep
  rw [State.withLatchedOp_host]
  cases s.host.status with
  | running =>
    cases s.host.program[s.host.index]? with
    | some st => exact Stmt.run_withLatchedOp op hf st
    | none => exact host _
  | halted | faulted => exact host s.host

end

/-! ### Issue, the engine's turn and reset -/

/-- The engine finds no command in a reserved LATCHED_OP (log 15). -/
theorem instrOfOp_eq_none {op : BitVec 4} (h : ∀ i, op ≠ opOfInstr i) : instrOfOp op = none := by
  cases hop : instrOfOp op with
  | none => rfl
  | some i => exact absurd (instrOfOp_eq_some hop) (h i)

theorem step_of_engine_reserved {s : State} (ha : s.nextAgent = .engine)
    (hf : s.block.fsm = .busy) (hop : ∀ i, s.block.latchedOp ≠ opOfInstr i) :
    step s = .fault .latchedOpReserved := by
  simp only [step_of_engine ha, State.engineStep, State.takeTurn_block, hf, instrOfOp_eq_none hop]

/-- The host's write of a command's word to CMD of an idle block is its issue (30_encoding R92). -/
theorem step_of_issue {s : State} {i : Instr} (hf : s.block.fsm = .idle)
    (hw : s.HostWrites .four Reg.cmd.offset (encode i)) :
    step s = .next { s.takeTurn with block := s.block.issue (opOfInstr i), host := s.host.next } := by
  have written : s.takeTurn.block.busWrite Reg.cmd.offset .four (encode i) =
      some (s.block.issue (opOfInstr i)) := by
    rw [State.takeTurn_block, Block.busWrite_offset, Block.writeReg, Block.writeCmd_encode i hf,
      opField_encode]
  rw [step_of_writes hw, State.hostWrite_of_busWrite written]
  rfl

/-- The placed word stands before the engine, issued (log 14). -/
theorem State.placeCommand_encode (s : State) (i : Instr) : s.placeCommand (encode i) =
    { s with block := { s.block with fsm := .idle }.issue (opOfInstr i),
             schedule := .engine :: s.schedule } := by
  simp only [State.placeCommand, decode_encode, Block.writeCmd_encode, opField_encode]

theorem State.withFetchWord_toNat (s : State) (w : Word) :
    s.withFetchWord 32 w.toNat = s.placeCommand w := by
  rw [State.withFetchWord, Nat.mod_eq_of_lt w.isLt, BitVec.ofNat_toNat, BitVec.setWidth_eq]

@[simp] theorem Block.reset_ctrlWord (cfg : Config) (epoch : Nat) :
    (Block.reset cfg epoch).ctrlWord = 0#32 := by
  simp [Block.ctrlWord, Block.reset]

/-! ### The statements -/

/-- Settles O42, by the engine's turn at BUSY. -/
theorem engineStepRunsTheLatchedCommand : Obligations.EngineStepRunsTheLatchedCommand :=
  fun _ _ => step_of_engine_busy

/-- Settles O43: the host's step is the issue, and the engine's turn after it finds the command
latched. -/
theorem issuedWordRunsItsCommand : Obligations.IssuedWordRunsItsCommand :=
  fun _ _ hf hw => ⟨_, step_of_issue hf hw, rfl, fun ha => step_of_engine_busy ha rfl rfl⟩

/-- Settles O44: the placed word is issued and the engine's turn is next. -/
theorem placedWordRunsItsCommand : Obligations.PlacedWordRunsItsCommand := by
  intro s w i hw
  rw [eq_encode_of_decode hw, State.withFetchWord_toNat, State.placeCommand_encode]
  exact step_of_engine_busy rfl rfl rfl

/-- Settles O45, by the engine's turn at each FSM. -/
theorem engineIsEnabledOnlyWhenBusy : Obligations.EngineIsEnabledOnlyWhenBusy :=
  fun _ ha => ⟨step_of_engine_idle ha, step_of_engine_reserved ha⟩

/-- Settles O46: the reset step leaves the reset block, which is idle. -/
theorem resetEventClearsTheBlock : Obligations.ResetEventClearsTheBlock :=
  fun _ ha => ⟨_, step_of_reset ha, rfl, rfl, rfl, Block.reset_statusWord _ _,
    Block.reset_ctrlWord _ _, rfl, rfl, rfl, rfl, rfl, rfl, rfl, rfl, Memory.lookup_nil,
    Memory.lookup_nil,
    fun ht => step_of_engine_idle ht rfl⟩

/-- Settles O57, by the agents' turns: the host's statement by statement, and reset and the idle engine
read nothing of the block. -/
theorem latchedOpIsHiddenWhileIdle : Obligations.LatchedOpIsHiddenWhileIdle := by
  intro s t op hf h
  cases ha : s.nextAgent with
  | host =>
    rw [step_of_host ha, Host.Outcome.next.injEq] at h
    subst h
    exact ⟨_, step_of_host (s := s.withLatchedOp op) ha,
      State.hostStep_withLatchedOp (s := s.takeTurn) op hf⟩
  | reset =>
    rw [step_of_reset ha, Host.Outcome.next.injEq] at h
    subst h
    exact ⟨_, step_of_reset (s := s.withLatchedOp op) ha, rfl, fun _ => rfl⟩
  | engine =>
    rw [step_of_engine_idle ha hf, Host.Outcome.next.injEq] at h
    subst h
    exact ⟨_, step_of_engine_idle (s := s.withLatchedOp op) ha hf,
      State.sameButHiddenOp_with_host (s := s.takeTurn) op hf s.host⟩

/-- Settles O58, statement by statement; the temporaries are read before anything else. -/
theorem hostLocalStatements : Obligations.HostLocalStatements := by
  refine fun s => ⟨fun t imm => step_of_runs, fun target => step_of_runs, step_of_runs,
    fun t m imm v target hv => ⟨fun hst => ?andi, fun hst => ?srli,
      fun hst => ?bnz, fun hst => ?bz, fun k w hw =>
        ⟨fun hst => ?add, fun hst => ?sub⟩⟩⟩
  case andi => rw [step_of_runs_withTemp hst rfl hv]
  case srli => rw [step_of_runs_withTemp hst rfl hv, ushiftRight_eq_ofNat_div]
  case bnz =>
    rw [step_of_runs_withTemp hst rfl hv, State.branch_eq]
    simp
  case bz =>
    rw [step_of_runs_withTemp hst rfl hv, State.branch_eq]
    simp
  case add =>
    rw [step_of_runs_withTemp hst rfl hv, ← add_eq_ofNat_mod]
    exact congrArg _ (State.withTemp_of_written (s := s.takeTurn) hw _)
  case sub =>
    rw [step_of_runs_withTemp hst rfl hv, ← sub_eq_ofInt_emod]
    exact congrArg _ (State.withTemp_of_written (s := s.takeTurn) hw _)

/-- Settles O59, by the host's write and read where the bus answers OK. -/
theorem hostBusStatements : Obligations.HostBusStatements := by
  refine fun s n a => ⟨fun v b hw hb => ?write, fun t v hr hv => ?read⟩
  case write =>
    exact (step_of_writes hw).trans (congrArg _ (State.hostWrite_of_busWrite (s := s.takeTurn) hb))
  case read =>
    have kept : step s = .next (s.takeTurn.setTempNext t v) :=
      (step_of_reads hr).trans (congrArg _ (State.hostRead_of_busRead (s := s.takeTurn) hv))
    exact ⟨_, kept, rfl, HostAgent.temp_setTemp_same s.host t v,
      fun t' hne => HostAgent.temp_setTemp_other s.host v hne, rfl⟩

/-- Settles O60, by the statements that read a temporary. -/
theorem unwrittenTemporaryFaultsTheHost : Obligations.UnwrittenTemporaryFaultsTheHost :=
  fun s _ _ hst h hr =>
    (step_of_runs hst).trans (congrArg _ (Stmt.run_of_unwritten (s := s.takeTurn) hr h))

end Sys2Proof.Machine
end

section
/-! SUPPORT. Runs: whose turn comes some steps later (20_memory R72, 70_reset R241), the host's turns while
a command runs (20_memory R70, R76), and the command's completion after them (60_exceptions R210). -/

namespace Sys2Proof.Machine

/-! ### Whose turn comes `k` steps later -/

/-- The agent whose turn comes `k` steps after the next one. It stands in the schedule and the number of
the turn alone, which go on the same whatever the agents do (log 9). -/
def State.agentAfter (s : State) (k : Nat) : Agent :=
  State.nextAgent { s with schedule := s.schedule.drop k, turn := s.turn + k }

theorem exists_step_of_run {s t : State} {k : Nat}
    (h : Host.Core.run Sys2Proof.core (k + 1) s = .next t) :
    ∃ u, step s = .next u ∧ Host.Core.run Sys2Proof.core k u = .next t := by
  have first_step : ∀ (M : Host.Core) (s t : M.State), M.run (k + 1) s = .next t →
      ∃ u, M.step s = .next u ∧ M.run k u = .next t := by
    intro M s t h
    rw [Host.Core.run] at h
    split at h
    · next u hu => exact ⟨u, hu, h⟩
    · cases h
    · cases h
  exact first_step Sys2Proof.core s t h

theorem run_turn {k : Nat} {s t : State} (h : Host.Core.run Sys2Proof.core k s = .next t) :
    t.schedule = s.schedule.drop k ∧ t.turn = s.turn + k := by
  induction k generalizing s with
  | zero =>
    cases h
    exact ⟨rfl, rfl⟩
  | succ k ih =>
    obtain ⟨u, hu, hrun⟩ := exists_step_of_run h
    obtain ⟨hschedule, hturn⟩ := step_turn hu
    obtain ⟨hdrop, hlater⟩ := ih hrun
    rw [hdrop, hschedule, List.drop_tail, hlater, hturn]
    exact ⟨rfl, by omega⟩

theorem nextAgent_of_run {k : Nat} {s t : State}
    (h : Host.Core.run Sys2Proof.core k s = .next t) : t.nextAgent = s.agentAfter k := by
  obtain ⟨hschedule, hturn⟩ := run_turn h
  simp only [State.agentAfter, State.nextAgent, hschedule, hturn]

theorem State.agentAfter_of_schedule {s : State} {k : Nat} {a : Agent}
    (h : s.schedule[k]? = some a) : s.agentAfter k = a := by
  obtain ⟨hk, ha⟩ := List.getElem?_eq_some_iff.mp h
  simp only [State.agentAfter, State.nextAgent, List.drop_eq_getElem_cons hk, ha]

/-- Weak fairness of the engine: past the schedule's end its turn comes (70_reset R241, log 18). -/
theorem State.exists_agentAfter_engine (s : State) : ∃ k, s.agentAfter k = .engine := by
  refine ⟨s.schedule.length + Config.engineWait (s.turn + s.schedule.length),
    State.nextAgent_due (List.drop_eq_nil_of_le (Nat.le_add_right _ _)) ?_⟩
  rw [← Nat.add_assoc]
  exact engineTurnDue_wait _

/-! ### Host turns at BUSY (20_memory R70, R76) -/

/-- `b'` is `b` but for the event bits DONE, WDROP and IE, and DONE is not newly set. -/
def Block.SameButEvents (b' b : Block) : Prop :=
  b' = { b with done := b'.done, wdrop := b'.wdrop, ie := b'.ie } ∧
    (b.done = false → b'.done = false)

theorem Block.sameButEvents_refl (b : Block) : b.SameButEvents b := ⟨rfl, id⟩

theorem Block.SameButEvents.trans {b b' b'' : Block} (h' : b''.SameButEvents b')
    (h : b'.SameButEvents b) : b''.SameButEvents b := by
  obtain ⟨same', hdone'⟩ := h'
  obtain ⟨same, hdone⟩ := h
  refine ⟨?_, hdone' ∘ hdone⟩
  rw [same] at same'
  exact same'

theorem Block.SameButEvents.fsm {b b' : Block} (h : b'.SameButEvents b) : b'.fsm = b.fsm :=
  congrArg (·.fsm) h.1

theorem Block.SameButEvents.latchedOp {b b' : Block} (h : b'.SameButEvents b) :
    b'.latchedOp = b.latchedOp := congrArg (·.latchedOp) h.1

theorem Block.SameButEvents.cfg {b b' : Block} (h : b'.SameButEvents b) : b'.cfg = b.cfg :=
  congrArg (·.cfg) h.1

/-- No host write to a busy block sets DONE: only an issue and an illegal command touch it otherwise than
by the acknowledge, and both need IDLE. -/
theorem Block.busWrite_sameButEvents {b b' : Block} {a : Offset} {n : Size} {v : Word}
    (hf : b.fsm = .busy) (h : b.busWrite a n v = some b') : b'.SameButEvents b := by
  refine ⟨Block.busWrite_busy_frame hf h, fun hd => ?_⟩
  cases Block.busWrite_effect h with
  | illegal _ hidle => exact absurd (hf.symm.trans hidle) nofun
  | _ => simp [hd]

theorem exists_step_of_host_busy {s : State} (ha : s.nextAgent = .host)
    (hf : s.block.fsm = .busy) : ∃ t, step s = .next t ∧ t.block.SameButEvents s.block := by
  refine ⟨_, step_of_host ha, ?_⟩
  rcases host_turn_effect ha with ⟨h', he⟩ | ⟨n, a, v, b, _, hb, he⟩
  · rw [he]
    exact Block.sameButEvents_refl _
  · rw [he]
    exact Block.busWrite_sameButEvents hf hb

/-- Any number of host turns leave a running command's operands, results and buffers. -/
theorem exists_run_of_host_busy {s : State} (hf : s.block.fsm = .busy) {k : Nat}
    (hhost : ∀ j, j < k → s.agentAfter j = .host) :
    ∃ t : State, Host.Core.run Sys2Proof.core k s = .next t ∧ t.block.SameButEvents s.block := by
  induction k with
  | zero => exact ⟨s, rfl, Block.sameButEvents_refl _⟩
  | succ k ih =>
    obtain ⟨t, hrun, same⟩ := ih fun j hj => hhost j (Nat.lt_succ_of_lt hj)
    have ha : t.nextAgent = .host := (nextAgent_of_run hrun).trans (hhost k (Nat.lt_succ_self k))
    obtain ⟨u, hu, same'⟩ := exists_step_of_host_busy ha (same.fsm.trans hf)
    exact ⟨u, run_snoc k hrun hu, same'.trans same⟩

theorem State.agentAfter_of_host_turns {s : State} {k : Nat} {rest : List Agent}
    (h : s.schedule = List.replicate k .host ++ rest) (j : Nat) (hj : j < k) :
    s.agentAfter j = .host :=
  State.agentAfter_of_schedule <| by
    rw [h, List.getElem?_append_left (by rwa [List.length_replicate]), List.getElem?_replicate,
      if_pos hj]

/-! ### The completion after them (60_exceptions R210) -/

/-- A command's completion carries WDROP and IE through, and does not depend on the event bits. -/
theorem Block.SameButEvents.finish_commandBody {b b' : Block} (h : b'.SameButEvents b) (i : Instr)
    (turn : Nat) : (commandBody i turn b').finish =
      { (commandBody i turn b).finish with wdrop := b'.wdrop, ie := b'.ie } :=
  calc (commandBody i turn b').finish
      = (commandBody i turn
          (b.withUnread b.ibuf b.inBase b.inLen b'.done b'.wdrop b'.ie)).finish :=
        congrArg (fun b => (commandBody i turn b).finish) h.1
    _ = ((commandBody i turn b).withUnread b.ibuf b.inBase b.inLen b'.done b'.wdrop b'.ie).finish :=
        congrArg Block.finish (commandBody_withUnread rfl i)
    _ = { (commandBody i turn b).finish with wdrop := b'.wdrop, ie := b'.ie } := by
        rw [commandBody_frame i turn b]
        rfl

/-- The engine's turn after `k` turns of the host completes the issued command, with the result it has on
the block as issued. -/
theorem exists_step_of_issued {s t : State} {i : Instr} {k : Nat} (hf : s.block.fsm = .busy)
    (hop : s.block.latchedOp = opOfInstr i) (hrun : Host.Core.run Sys2Proof.core k s = .next t)
    (same : t.block.SameButEvents s.block) (ha : t.nextAgent = .engine) :
    ∃ u v : State, step t = .next u ∧ exec i { s with turn := s.turn + (k + 1) } = .next v ∧
      u.block.fsm = .idle ∧ u.block.done = true ∧
      u.block = { v.block with wdrop := u.block.wdrop, ie := u.block.ie } := by
  have hturn : t.takeTurn.turn = s.turn + (k + 1) := by
    rw [State.takeTurn_turn, (run_turn hrun).2, Nat.add_assoc]
  have hstep := step_of_engine_busy ha (same.fsm.trans hf) (same.latchedOp.trans hop)
  refine ⟨_, _, hstep.trans (exec_eq_complete i _), exec_eq_complete i _, rfl, rfl, ?_⟩
  rw [State.complete_block, State.takeTurn_block, hturn, same.finish_commandBody i]
  rfl

/-- The least number of host turns before a turn of another agent. -/
theorem State.exists_host_turns (s : State) :
    ∃ k, (∀ j, j < k → s.agentAfter j = .host) ∧ s.agentAfter k ≠ .host := by
  have another : ∃ k, s.agentAfter k ≠ .host := by
    obtain ⟨k, hk⟩ := s.exists_agentAfter_engine
    exact ⟨k, by rw [hk]; decide⟩
  exact ⟨Nat.find another, fun j hj => not_not.mp (Nat.find_min another hj), Nat.find_spec another⟩

theorem State.engineTurnComes_of_inv {s : State} (hs : s.Inv) : s.EngineTurnComes := by
  obtain ⟨k, hk⟩ := s.exists_agentAfter_engine
  obtain ⟨t, hrun, -⟩ := exists_run_of_inv k hs
  exact ⟨k, t, hrun, (nextAgent_of_run hrun).trans hk⟩

/-! ### The statements -/

/-- Settles O55, by induction on the number of host turns. -/
theorem hostTurnsWhileBusyKeepOperands : Obligations.HostTurnsWhileBusyKeepOperands := by
  intro k s rest hf hschedule
  obtain ⟨t, hrun, same, hdone⟩ :=
    exists_run_of_host_busy hf (State.agentAfter_of_host_turns hschedule)
  refine ⟨t, hrun, ?_, same, hdone⟩
  rw [(run_turn hrun).1, hschedule]
  simp

/-- Settles O56: host turns keep what the command reads, the first other turn is the engine's or
reset's, and fairness brings the engine's. -/
theorem completionIsAFunctionOfTheIssuedState :
    Obligations.CompletionIsAFunctionOfTheIssuedState := by
  refine ⟨fun k s rest i hf hop hschedule => ?scheduled, fun s i hf hop => ?fair,
    fun s => State.engineTurnComes_of_inv⟩
  case scheduled =>
    obtain ⟨t, hrun, same⟩ :=
      exists_run_of_host_busy hf (State.agentAfter_of_host_turns hschedule)
    have ha : t.nextAgent = .engine :=
      (nextAgent_of_run hrun).trans (State.agentAfter_of_schedule (by simp [hschedule]))
    obtain ⟨u, v, hu, hv, hidle, hdone, hblock⟩ := exists_step_of_issued hf hop hrun same ha
    have hrun' := run_snoc k hrun hu
    refine ⟨u, v, hrun', hv, ?_, hidle, hdone, hblock⟩
    rw [(run_turn hrun').1, hschedule]
    simp [List.drop_append]
  case fair =>
    obtain ⟨k, hhost, hother⟩ := s.exists_host_turns
    obtain ⟨t, hrun, same⟩ := exists_run_of_host_busy hf hhost
    have hbusy := same.fsm.trans hf
    cases ha : t.nextAgent with
    | host => exact absurd ((nextAgent_of_run hrun).symm.trans ha) hother
    | engine =>
      obtain ⟨u, v, hu, hv, hidle, hdone, hblock⟩ := exists_step_of_issued hf hop hrun same ha
      exact ⟨k, t, u, hrun, hbusy, hu, hidle, .inl ⟨ha, hdone, v, hv, hblock⟩⟩
    | reset =>
      refine ⟨k, t, _, hrun, hbusy, step_of_reset ha, rfl, .inr ⟨ha, ?_⟩⟩
      rw [State.resetEvent_block, State.takeTurn_block, State.takeTurn_turn, same.cfg,
        (run_turn hrun).2, Nat.add_assoc]

end Sys2Proof.Machine
end
